-- ==== Sys2Proof/Word.lean ====
section
/-! DEFINITION. The word types of the DCQ-FRS: 32-bit window registers and command words, 16-bit output words and
sample operands, and the bytes of a bus word (00_scope.md R6, R14). -/

namespace Sys2Proof

/-- A register of the window, or a command word: "Every register of the window is 32 bits wide" (00_scope.md R14). -/
abbrev Word := BitVec 32

/-- An output word, a sample operand, or `lastq`: 16 bits (00_scope.md R6 `WORD_BITS`, `SAMPLE_BITS`; R14). -/
abbrev Half := BitVec 16

/-- One byte lane of the bus (20_memory.md R43). -/
abbrev Byte := BitVec 8

end Sys2Proof
end

