-- ==== Sys2Proof/Config.lean ====
section
/-! DEFINITION. The parameter set a DCQ-FRS is built with (00_scope.md R6, R10 to R13), and the values of this hardware. -/

namespace Sys2Proof

/-- `RAMP_ARITH` (00_scope.md R10): the arithmetic of the ramp accumulator. -/
inductive RampArith where
  | binary32
  | exact
deriving DecidableEq, Repr

/-- `RAMP_STEP_FORM` (00_scope.md R11): what the step of a ramp is computed from. -/
inductive RampStepForm where
  | distance
  | target
deriving DecidableEq, Repr

/-- A parameter set. `OUT_DEPTH` and `BASE` are held in the form that makes their own limits hold by construction:
`OUT_DEPTH = extraDepth + 1` is at least 1 and `BASE = 32 * basePage` is a multiple of 32 (00_scope.md R12). Whether
the set is legal (R13) is `Params.Legal`. -/
structure Params where
  clkHz        : Nat
  rateHz       : Nat
  rampArith    : RampArith
  rampStepForm : RampStepForm
  extraDepth   : Nat
  basePage     : Nat
deriving DecidableEq, Repr

/-- OUT_DEPTH - 1 of this hardware: left open by 00_scope.md R12 and 92_eei_decisions.md D16, so no value can be
read from it (log entry 3). -/
opaque Config.extraDepth : Nat

/-- BASE / 32 of this hardware: left open by 00_scope.md R12 and 92_eei_decisions.md D10, so no value can be read
from it (log entry 3). -/
opaque Config.basePage : Nat

/-- The parameter values of this hardware (00_scope.md R6, R10, R11, R12). -/
def Config.thisHardware : Params :=
  { clkHz := 125000000
    rateHz := 22050
    rampArith := .binary32
    rampStepForm := .distance
    extraDepth := Config.extraDepth
    basePage := Config.basePage }

end Sys2Proof
end

