-- ==== Sys2Proof/Machine/State.lean ====
section
/-! DEFINITION. The state of the model: the tuple of 10_state.md R20, the parameter set, and the host's side of the
bus; the reasons a step can stop; and the state after reset. -/

namespace Sys2Proof.Machine

open Sys2Proof

/-- The output mode (10_state.md R21). -/
inductive Mode where
  | dualPhase
  | dualChannel
deriving DecidableEq, Repr

/-- The error causes (60_exceptions.md R101). Codes 6 and 7 are "never raised". -/
inductive Cause where
  | none
  | illegalCmd
  | cmdBusy
  | noSample
  | rampRange
  | ctrlBusy
deriving DecidableEq, Repr

/-- A pair `(W1, W2)` of 16-bit output words (00_scope.md R18). -/
structure Pair where
  w1 : Half
  w2 : Half
deriving DecidableEq, Repr

/-- A finite IEEE 754 binary32 value (41_ramp.md R80): sign, biased exponent and fraction. The exponent 255 of the
infinities and NaNs is no value of this type: "`Acc` is the set of finite IEEE 754 binary32 values". -/
structure Binary32 where
  sign : Bool
  exp  : Fin 255
  frac : BitVec 23
deriving DecidableEq, Repr

/-- The kind of a ramp: `In` is the fade-in and `Out` the fade-out (10_state.md R25). -/
inductive RampKind where
  | fadeIn
  | fadeOut
deriving DecidableEq, Repr

/-- The running accumulator `acc` and the decrement `step` of a ramp (10_state.md R25, R31), both of the type that
RAMP_ARITH fixes (41_ramp.md R80). -/
inductive RampAcc where
  | binary32 (acc step : Binary32)
  | exact (acc step : Rat)
deriving DecidableEq, Repr

/-- The engine's control state (10_state.md R25). In `ramp`, `k` counts the pairs already pushed. -/
inductive Engine where
  | idle
  | emit1 (p : Pair)
  | ramp (kind : RampKind) (k : Nat) (r : RampAcc)
deriving DecidableEq, Repr

/-- The eight registers of the window (20_memory.md R40). -/
inductive Reg where
  | ctrl
  | status
  | cmd
  | out
  | period
  | fade
  | lastq
  | reserved
deriving DecidableEq, Repr

/-- The width of a host access, in bits (20_memory.md R42). -/
inductive AccessWidth where
  | w8
  | w16
  | w32
  | w64
deriving DecidableEq, Repr

/-- What a host access does. The value of a write is given for the one width that has a meaning. -/
inductive AccessOp where
  | read
  | write (v : Word)
deriving DecidableEq, Repr

/-- A host access at the offset `off` from BASE. An address below BASE has a negative offset. -/
structure Access where
  off   : Int
  width : AccessWidth
  op    : AccessOp
deriving DecidableEq, Repr

/-- One operation of a host program (30_encoding.md R67): an access at a window offset, an access at a bus address,
`waitidle`, and `drain`, whose OUT read is the second transition of a round, `drainTake`. -/
inductive HostOp where
  | access (a : Access)
  | busAccess (addr : Nat) (width : AccessWidth) (op : AccessOp)
  | waitIdle
  | drain
  | drainTake
deriving DecidableEq, Repr

/-- Which transition is taken: a host access, an engine step (20_memory.md R53), or a power-on reset
(70_reset_and_hazards.md R120). -/
inductive Turn where
  | host
  | engine
  | powerOn
deriving DecidableEq, Repr

/-- A value returned to the host by a read (30_encoding.md R67, "read and name the value"). -/
structure BusRead where
  reg   : Reg
  value : Word
deriving DecidableEq, Repr

/-- Why the machine stops with a fault: never. The block's errors are recorded in the error latch and the machine
goes on (60_exceptions.md R100, R103), so this type has no constructor. Safe: no rule names anything that stops the
block. -/
inductive Fault where
deriving DecidableEq, Repr

/-- Why the model refuses a step. -/
inductive Refusal where
  /-- Raised by an arm of `exec` whose instruction has no meaning yet. No arm raises it. Safe. -/
  | notModelled (mnemonic : String)
  /-- Raised by a host access of 8, 16 or 64 bits: "The block gives no meaning to any other access ... A model refuses
  such an access" (20_memory.md R42). Safe. -/
  | accessWidth
  /-- Raised by a host access at an offset that is no multiple of 4 (20_memory.md R42). Safe. -/
  | accessMisaligned
  /-- Raised by a host access at an address outside the window (20_memory.md R42). Safe. -/
  | accessOutsideWindow
  /-- Raised by a step, and by a command, of a block with an illegal parameter set: "A model refuses an illegal
  parameter set: the block does not exist for it" (00_scope.md R13). Safe. -/
  | illegalParameters
deriving DecidableEq, Repr

/-- The state. The first seven fields are the tuple of 10_state.md R20. The others are the model's own: the parameter
set, which no step changes (log entry 2), the transitions to take next (log entry 1), and the host's side of the bus:
the operations it has still to make, the values its `rd` operations returned, and the list L of the pairs it read from
OUT (log entry 4). -/
structure State where
  mode      : Mode
  err       : Bool
  cause     : Cause
  outq      : List Pair
  engine    : Engine
  lastq     : Half
  lastqV    : Bool
  cfg       : Params
  turns     : List Turn
  program   : List HostOp
  reads     : List BusRead
  pairsRead : List Pair
deriving DecidableEq, Repr

/-- The state after reset (10_state.md R32), of this hardware, with a host that has not begun any program. -/
def State.reset : State :=
  { mode := .dualPhase
    err := false
    cause := .none
    outq := []
    engine := .idle
    lastq := 0
    lastqV := false
    cfg := Config.thisHardware
    turns := []
    program := []
    reads := []
    pairsRead := [] }

end Sys2Proof.Machine
end

