-- ==== Sys2Proof/Machine/Binary32.lean ====
section
/-! DEFINITION. Binary32 arithmetic (41_ramp.md R80): conversion of an integer, subtraction and division rounded once
to nearest with ties to even, and truncation. A value is held exactly as a whole number of units of 2^-149, the
spacing of the subnormals, so that one rounding step is one integer division. -/

namespace Sys2Proof.Machine

/-- The magnitude of a binary32 value, in units of 2^-149. -/
def Binary32.mag (x : Binary32) : Nat :=
  if x.exp.val = 0 then x.frac.toNat else (2 ^ 23 + x.frac.toNat) * 2 ^ (x.exp.val - 1)

/-- A binary32 value, in units of 2^-149. -/
def Binary32.units (x : Binary32) : Int := if x.sign then -(x.mag : Int) else (x.mag : Int)

/-- The real value of a binary32 value, which is a rational. -/
def Binary32.toRat (x : Binary32) : Rat := (x.units : Rat) / (2 ^ 149 : Nat)

/-- The 32 bits of a binary32 value: sign, exponent, fraction. -/
def Binary32.bits (x : Binary32) : BitVec 32 := BitVec.ofBool x.sign ++ BitVec.ofNat 8 x.exp.val ++ x.frac

/-- The integer nearest to `num / den`, a tie going to the even one (41_ramp.md R80). -/
def nearestEven (num den : Nat) : Nat :=
  if 2 * (num % den) < den then num / den
  else if den < 2 * (num % den) then num / den + 1
  else if num / den % 2 = 0 then num / den
  else num / den + 1

/-- The largest magnitude pattern (exponent and fraction read as one number) of a finite binary32 value. -/
def Binary32.maxPattern : Nat := 255 * 2 ^ 23 - 1

/-- The binary32 value of a sign and a magnitude pattern. A pattern above the finite ones is taken as the largest
finite one: "NaN and infinity cannot arise" (41_ramp.md R80), so no ramp reaches that case (log entry 5). -/
def Binary32.ofPattern (sign : Bool) (pattern : Nat) : Binary32 :=
  { sign := sign
    exp := ⟨min pattern Binary32.maxPattern / 2 ^ 23,
      Nat.div_lt_of_lt_mul (Nat.lt_of_le_of_lt (Nat.min_le_right _ _) (by decide))⟩
    frac := BitVec.ofNat 23 (min pattern Binary32.maxPattern) }

/-- The exponent of the last place a magnitude of `num / den` units keeps: 24 significant bits, and never below one
unit. -/
def Binary32.lastPlace (num den : Nat) : Nat := Nat.log2 (num / den) - 23

/-- The magnitude pattern of `num / den` units, rounded once to nearest, ties to even. A significand that rounds up to
2^24 carries into the exponent. -/
def Binary32.roundPattern (num den : Nat) : Nat :=
  Binary32.lastPlace num den * 2 ^ 23 + nearestEven num (den * 2 ^ Binary32.lastPlace num den)

/-- The binary32 value nearest to `num / den` units of 2^-149, with the sign given. -/
def Binary32.round (sign : Bool) (num den : Nat) : Binary32 :=
  Binary32.ofPattern sign (Binary32.roundPattern num den)

/-- `RFromInt(i)` (41_ramp.md R80). -/
def Binary32.fromInt (i : Int) : Binary32 := Binary32.round (decide (i < 0)) (i.natAbs * 2 ^ 149) 1

/-- `RSub(a, b)`: "binary32 subtraction, rounded once to nearest, ties to even" (41_ramp.md R80). A difference of zero
is +0, unless it is (-0) - (+0). -/
def Binary32.sub (a b : Binary32) : Binary32 :=
  Binary32.round (if a.units - b.units = 0 then a.sign && !b.sign else decide (a.units - b.units < 0))
    (a.units - b.units).natAbs 1

/-- `RDiv(a, b)`: "binary32 division, rounded the same way" (41_ramp.md R80). The divisor of a ramp is N, at least 1. -/
def Binary32.div (a b : Binary32) : Binary32 :=
  Binary32.round (a.sign != b.sign) (a.mag * 2 ^ 149) b.mag

/-- `RTrunc(a)`: `trunc` of the real value of `a` (41_ramp.md R80). -/
def Binary32.trunc (a : Binary32) : Int := a.units.tdiv (2 ^ 149)

end Sys2Proof.Machine
end

