-- ==== Sys2Proof/Machine/Constants.lean ====
section
/-! DEFINITION. The constants a parameter set fixes: PERIOD, N, SILENCE, OUT_DEPTH, BASE, and when the set is legal
(00_scope.md R7, R8, R9, R12, R13). -/

namespace Sys2Proof

/-- `PERIOD = floor(CLK_HZ / RATE_HZ)` (00_scope.md R7). A rate of 0 gives 0 here, which R13 makes illegal. -/
def Params.period (p : Params) : Nat := p.clkHz / p.rateHz

/-- `N = floor(PERIOD / 10)`, the fade size (00_scope.md R8). -/
def Params.fadeSize (p : Params) : Nat := p.period / 10

/-- `SILENCE = floor(PERIOD / 2)` (00_scope.md R9). -/
def Params.silence (p : Params) : Nat := p.period / 2

/-- `OUT_DEPTH`, the capacity in pairs of the output queue (00_scope.md R12). -/
def Params.outDepth (p : Params) : Nat := p.extraDepth + 1

/-- `BASE`, the bus address of offset 0 of the window (00_scope.md R12). -/
def Params.base (p : Params) : Nat := 32 * p.basePage

/-- "A parameter set is legal only if 10 ≤ PERIOD ≤ 65535" (00_scope.md R13). -/
abbrev Params.Legal (p : Params) : Prop := 10 ≤ p.period ∧ p.period ≤ 65535

end Sys2Proof
end

