-- ==== Sys2Proof/Machine/Operands.lean ====
section
/-! DEFINITION. Operand forms and bit fields: the sample operand of a command, the byte lanes of a bus word, and the
extension and truncation helpers of 00_scope.md R15. -/

namespace Sys2Proof.Machine

open Sys2Proof

/-- `s16(v)`: the two's-complement value of a 16-bit field, in [-32768, 32767] (00_scope.md R15). -/
def s16 (v : Half) : Int := v.toInt

/-- `zext_32(v)` of a 16-bit field (00_scope.md R15). -/
def zext32 (v : Half) : Word := v.zeroExtend 32

/-- A constant read through a register: its low 16 bits, zero-extended (20_memory.md R48). -/
def half (n : Nat) : Half := BitVec.ofNat 16 n

/-- `{a, b}` of two 16-bit fields: `a` in the high bits (00_scope.md R14). -/
def concat (a b : Half) : Word := a ++ b

/-- `Pack(W1, W2) = {W2, W1}` (00_scope.md R18). -/
def pack (p : Pair) : Word := concat p.w2 p.w1

/-- `(o[15:0], o[31:16])`: the pair a host reads off an OUT word (30_encoding.md R67). -/
def unpack (o : Word) : Pair := { w1 := o.extractLsb' 0 16, w2 := o.extractLsb' 16 16 }

/-- Byte lane `i` of the bus carries bits [8i+7:8i] of the register (20_memory.md R43). -/
def laneByte (v : Word) (i : Nat) : Byte := v.extractLsb' (8 * i) 8

/-- `trunc` of a rational: "the integer with the largest absolute value not above |x| and the sign of x"
(00_scope.md R15). -/
def truncRat (x : Rat) : Int := x.num.tdiv x.den

end Sys2Proof.Machine
end

