-- ==== Sys2Proof/Machine/Flags.lean ====
section
/-! DEFINITION. The block's only flags: the bits of STATUS, a view computed from the state (10_state.md R22, R34), and
the codes of the error causes (60_exceptions.md R101). -/

namespace Sys2Proof.Machine

open Sys2Proof

/-- The 3-bit code of a cause (60_exceptions.md R101). -/
def Cause.code : Cause → BitVec 3
  | .none => 0
  | .illegalCmd => 1
  | .cmdBusy => 2
  | .noSample => 3
  | .rampRange => 4
  | .ctrlBusy => 5

/-- CTRL.MODE: 0 = DualPhase, 1 = DualChannel (10_state.md R21). -/
def Mode.bit : Mode → Bool
  | .dualPhase => false
  | .dualChannel => true

/-- The mode a bit selects (20_memory.md R44). -/
def modeOfBit (b : Bool) : Mode := if b then .dualChannel else .dualPhase

/-- STATUS.BUSY: 1 iff `engine != Idle` (10_state.md R34). -/
def busy (s : State) : Bool := decide (s.engine ≠ .idle)

/-- STATUS.OUT_VALID: 1 iff the queue holds a pair (10_state.md R22). -/
def outValid (s : State) : Bool := decide (1 ≤ s.outq.length)

/-- STATUS.OUT_FULL: 1 iff `length(outq) = OUT_DEPTH` (10_state.md R22). -/
def outFull (s : State) : Bool := decide (s.outq.length = s.cfg.outDepth)

/-- STATUS (10_state.md R22): from bit 31 down, reserved, CAUSE[10:8], reserved, LASTQ_V, ERR, OUT_FULL, OUT_VALID,
BUSY. -/
def statusWord (s : State) : Word :=
  (0 : BitVec 21) ++ s.cause.code ++ (0 : BitVec 3) ++ BitVec.ofBool s.lastqV ++ BitVec.ofBool s.err
    ++ BitVec.ofBool (outFull s) ++ BitVec.ofBool (outValid s) ++ BitVec.ofBool (busy s)

/-- CTRL as it reads: `{31'b0, mode}` (20_memory.md R44). -/
def ctrlWord (s : State) : Word := (0 : BitVec 31) ++ BitVec.ofBool s.mode.bit

end Sys2Proof.Machine
end

