-- ==== Sys2Proof/Machine/Ops.lean ====
section
/-! DEFINITION. The named operations over the state: the output queue, the error latch, the reset, and the checks of
command dispatch that come before a command's own effect. -/

namespace Sys2Proof.Machine

open Sys2Proof

/-- `Push(p)`: append a pair to the tail of the output queue (00_scope.md R17, 10_state.md R24). -/
def push (p : Pair) (s : State) : State := { s with outq := s.outq ++ [p] }

/-- `Pop()`: remove the head pair (00_scope.md R17); an empty queue stays empty (20_memory.md R47). -/
def pop (s : State) : State := { s with outq := s.outq.tail }

/-- `raise Error(c)`, the error latch (60_exceptions.md R103, R104): the first error is recorded and the command in
progress abandoned. This is all the block does for an exception: there is no vector and no handler (R100). -/
def raiseError (c : Cause) (s : State) : State :=
  if s.err then s else { s with err := true, cause := c, engine := .idle }

/-- `Reset()` (70_reset_and_hazards.md R121): every field of the tuple at its reset value, in one transition, whatever
the state was. It is the only way out of the error latch (60_exceptions.md R108). -/
def resetBlock (s : State) : State :=
  { s with mode := .dualPhase, err := false, cause := .none, outq := [], engine := .idle, lastq := 0, lastqV := false }

/-- The checks of `Dispatch` that come before the decoded command (30_encoding.md R69): a write while `err = 1` is
ignored, and one while the engine is busy raises CMD_BUSY. An illegal parameter set is refused (00_scope.md R13). -/
def whenReady (s : State) (accept : State → Host.Outcome State Fault Refusal) : Host.Outcome State Fault Refusal :=
  if ¬ s.cfg.Legal then .refused .illegalParameters
  else if s.err then .next s
  else if s.engine ≠ .idle then .next (raiseError .cmdBusy s)
  else accept s

end Sys2Proof.Machine
end

