-- ==== Sys2Proof/Machine/Quantizer.lean ====
section
/-! DEFINITION. The sample quantizer, the payload pair, and the meaning of QUANT (40_quantizer.md). -/

namespace Sys2Proof.Machine

open Sys2Proof

/-- `floor((s + 32768) * PERIOD / 65536)`, before the terminator avoidance (40_quantizer.md R71). -/
def scaledSample (p : Params) (s : Int) : Nat := (s + 32768).toNat * p.period / 65536

/-- `Quantize(s)` (40_quantizer.md R71): "if q = 0 then q <- 1". -/
def quantize (p : Params) (s : Int) : Half :=
  half (if scaledSample p s = 0 then 1 else scaledSample p s)

/-- `PayloadPair(mode, q)` (40_quantizer.md R74). -/
def payloadPair (p : Params) (mode : Mode) (q : Half) : Pair :=
  match mode with
  | .dualPhase => { w1 := q, w2 := half (p.period - q.toNat) }
  | .dualChannel => { w1 := q, w2 := q }

/-- `AcceptQuant(s)` (40_quantizer.md R75). -/
def acceptQuant (sample : Int) (s : State) : State :=
  let q := quantize s.cfg sample
  { s with lastq := q, lastqV := true, engine := .emit1 (payloadPair s.cfg s.mode q) }

/-- QUANT (40_quantizer.md R75): quantize one sample and hold its pair for the engine. -/
def execQuant (imm : Half) (s : State) : Host.Outcome State Fault Refusal :=
  whenReady s fun s => .next (acceptQuant (s16 imm) s)

end Sys2Proof.Machine
end

