-- ==== Sys2Proof/Machine/Ramp.lean ====
section
/-! DEFINITION. The linear fade-ramp synthesizer and the meanings of FADEIN and FADEOUT (41_ramp.md). -/

namespace Sys2Proof.Machine

open Sys2Proof

/-- `D` of 41_ramp.md R82: the distance, or in the Target form the end. -/
def rampDistance (p : Params) (start stop : Int) : Int :=
  match p.rampStepForm with
  | .distance => start - stop
  | .target => stop

/-- The accumulator and the step a ramp starts with (41_ramp.md R82, R83): `acc = RFromInt(start)` and
`step = RDiv(RFromInt(D), RFromInt(N))`, in the arithmetic of RAMP_ARITH (R80). -/
def rampInit (p : Params) (start stop : Int) : RampAcc :=
  match p.rampArith with
  | .binary32 =>
    .binary32 (Binary32.fromInt start)
      (Binary32.div (Binary32.fromInt (rampDistance p start stop)) (Binary32.fromInt p.fadeSize))
  | .exact => .exact start ((rampDistance p start stop : Rat) / (p.fadeSize : Rat))

/-- `RTrunc(acc)` (41_ramp.md R80). -/
def RampAcc.trunc : RampAcc → Int
  | .binary32 acc _ => acc.trunc
  | .exact acc _ => truncRat acc

/-- `RSub(acc, step)`, the step kept (41_ramp.md R80, R84). -/
def RampAcc.advance : RampAcc → RampAcc
  | .binary32 acc step => .binary32 (Binary32.sub acc step) step
  | .exact acc step => .exact (acc - step) step

/-- Start a ramp of a kind between two endpoints (41_ramp.md R81, R83). -/
def startRamp (kind : RampKind) (start stop : Int) (s : State) : State :=
  { s with engine := .ramp kind 0 (rampInit s.cfg start stop) }

/-- `FadePair(kind, mode, v)` (41_ramp.md R85), for `v` in [0, PERIOD]. -/
def fadePair (p : Params) (kind : RampKind) (mode : Mode) (v : Nat) : Pair :=
  match mode, kind with
  | .dualPhase, .fadeIn => { w1 := half (p.period - v), w2 := half v }
  | .dualPhase, .fadeOut => { w1 := half v, w2 := half (p.period - v) }
  | .dualChannel, _ => { w1 := half v, w2 := half v }

/-- `AcceptFadeIn(s)` (41_ramp.md R86). -/
def acceptFadeIn (sample : Int) (s : State) : State :=
  startRamp .fadeIn s.cfg.silence (quantize s.cfg sample).toNat s

/-- `AcceptFadeOut()` (41_ramp.md R87). -/
def acceptFadeOut (s : State) : State :=
  if s.lastqV then startRamp .fadeOut s.lastq.toNat s.cfg.silence s else raiseError .noSample s

/-- FADEIN (41_ramp.md R86): start the ramp from SILENCE toward the quantized value of the sample. -/
def execFadein (imm : Half) (s : State) : Host.Outcome State Fault Refusal :=
  whenReady s fun s => .next (acceptFadeIn (s16 imm) s)

/-- FADEOUT (41_ramp.md R87): start the ramp from `lastq` back toward SILENCE, or raise NO_SAMPLE. -/
def execFadeout (s : State) : Host.Outcome State Fault Refusal :=
  whenReady s fun s => .next (acceptFadeOut s)

end Sys2Proof.Machine
end

