-- ==== Sys2Proof/Machine/Engine.lean ====
section
/-! DEFINITION. The engine: when it has a step and what the step does (10_state.md R33, 40_quantizer.md R76,
41_ramp.md R84). -/

namespace Sys2Proof.Machine

open Sys2Proof

/-- "The engine has a step exactly when all three hold" (10_state.md R33). -/
abbrev EngineReady (s : State) : Prop :=
  s.err = false ∧ s.engine ≠ .idle ∧ s.outq.length < s.cfg.outDepth

/-- "if v < 0 or v > PERIOD" (41_ramp.md R84). -/
abbrev RampOutOfRange (p : Params) (v : Int) : Prop := v < 0 ∨ (p.period : Int) < v

/-- The engine state after step `k` of a ramp (41_ramp.md R84): idle after the N-th, where the accumulator left over
is thrown away. -/
def rampNext (p : Params) (kind : RampKind) (k : Nat) (r : RampAcc) : Engine :=
  if k + 1 = p.fadeSize then .idle else .ramp kind (k + 1) r.advance

/-- The engine step in `Ramp(kind, k, acc, step)` (41_ramp.md R84). -/
def rampStep (kind : RampKind) (k : Nat) (r : RampAcc) (s : State) : State :=
  if RampOutOfRange s.cfg r.trunc then raiseError .rampRange s
  else { push (fadePair s.cfg kind s.mode r.trunc.toNat) s with engine := rampNext s.cfg kind k r }

/-- The engine step in `Emit1 p` (40_quantizer.md R76). -/
def emitStep (p : Pair) (s : State) : State := { push p s with engine := .idle }

/-- The engine step (10_state.md R33). -/
def engineStep (s : State) : State :=
  match s.engine with
  | .idle => s
  | .emit1 p => emitStep p s
  | .ramp kind k r => rampStep kind k r s

/-- The engine's turn. Where it has no step it holds and nothing changes (10_state.md R33). -/
def engineTurn (s : State) : State := if EngineReady s then engineStep s else s

end Sys2Proof.Machine
end

