-- ==== Sys2Proof/Syntax.lean ====
section
/-! DEFINITION. The instructions: the three commands of the opcode table (30_encoding.md R63). -/

namespace Sys2Proof

/-- A command. The operand of QUANT and FADEIN is the field IMM, whose 65536 bit patterns are exactly the samples
of 30_encoding.md R62; FADEOUT takes no operand. -/
inductive Instr where
  | quant (imm : Half)
  | fadein (imm : Half)
  | fadeout
deriving DecidableEq, Repr

end Sys2Proof
end

