-- ==== Sys2Proof/Decode.lean ====
section
/-! DEFINITION. The command decoder (30_encoding.md R60 to R68), total on every word, and after it the encoder and the
opcode table (R63). -/

namespace Sys2Proof

open Sys2Proof.Machine

/-- Why a word is no command (30_encoding.md R64). -/
inductive Illegal where
  /-- RSV ≠ 0. -/
  | rsvNonzero
  /-- OP is 0x0 or 0x4 to 0xF. -/
  | opUnassigned
  /-- OP = 0x3 with IMM ≠ 0. -/
  | immNonzero
  /-- Not four byte lanes: a command is one 32-bit write, "never split across writes" (R60). -/
  | notOneWord
deriving DecidableEq, Repr

/-- Field RSV, bits [31:20] (30_encoding.md R61). -/
def fieldRsv (v : Word) : BitVec 12 := v.extractLsb' 20 12

/-- Field OP, bits [19:16] (30_encoding.md R61). -/
def fieldOp (v : Word) : BitVec 4 := v.extractLsb' 16 4

/-- Field IMM, bits [15:0] (30_encoding.md R61). -/
def fieldImm (v : Word) : Half := v.extractLsb' 0 16

/-- `Decode(v)` (30_encoding.md R68). -/
def decode (v : Word) : Except Illegal Instr :=
  if fieldRsv v ≠ 0 then .error .rsvNonzero
  else if fieldOp v = 1 then .ok (.quant (fieldImm v))
  else if fieldOp v = 2 then .ok (.fadein (fieldImm v))
  else if fieldOp v = 3 then (if fieldImm v = 0 then .ok .fadeout else .error .immNonzero)
  else .error .opUnassigned

/-- The bus word of four byte lanes, the lowest address first (20_memory.md R43). -/
def wordOfLanes (b0 b1 b2 b3 : Byte) : Word := b3 ++ b2 ++ b1 ++ b0

/-- The decoder on the bytes of a CMD write, the lowest address first; total on every list. -/
def decodeBytes : List Byte → Except Illegal Instr
  | [b0, b1, b2, b3] => decode (wordOfLanes b0 b1 b2 b3)
  | _ => .error .notOneWord

/-- The four byte lanes of a bus word, the lowest address first (20_memory.md R43). -/
def bytesOfWord (v : Word) : List Byte := [laneByte v 0, laneByte v 1, laneByte v 2, laneByte v 3]

/-- The command word of an opcode-table word `w` of `nbits` bits; the bits above are 0. -/
def tableWord (nbits w : Nat) : Word := BitVec.ofNat 32 (w % 2 ^ nbits)

/-- What the decoder reads from an opcode-table word, laid out in its byte lanes. -/
def decodeTableWord (nbits w : Nat) : Option Instr :=
  (decodeBytes (bytesOfWord (tableWord nbits w))).toOption

/-- A word of format C with RSV = 0 (30_encoding.md R61). -/
def formatC (op : BitVec 4) (imm : Half) : Word := (0 : BitVec 12) ++ op ++ imm

/-- The word of an instruction (30_encoding.md R63, R66). -/
def encode : Instr → Word
  | .quant imm => formatC 1 imm
  | .fadein imm => formatC 2 imm
  | .fadeout => formatC 3 0

/-- A row of the opcode table: the words `v` with `v & mask = pattern`. -/
structure OpRow where
  pattern : Word
  mask    : Word
deriving DecidableEq, Repr

/-- "A word `v` spells an instruction iff `(v & mask) = match`" (30_encoding.md R63). -/
abbrev OpRow.Spells (r : OpRow) (v : Word) : Prop := v &&& r.mask = r.pattern

/-- The opcode table's row of an instruction (30_encoding.md R63). -/
def opRow : Instr → OpRow
  | .quant _ => { pattern := 0x00010000, mask := 0xFFFF0000 }
  | .fadein _ => { pattern := 0x00020000, mask := 0xFFFF0000 }
  | .fadeout => { pattern := 0x00030000, mask := 0xFFFFFFFF }

/-- The opcode table, in its order (30_encoding.md R63). -/
def opcodeTable : List OpRow := [opRow (.quant 0), opRow (.fadein 0), opRow .fadeout]

end Sys2Proof
end

