-- ==== Sys2Proof/Machine/Dispatch.lean ====
section
/-! DEFINITION. One arm per instruction: the meaning of a command written to CMD (30_encoding.md R69). -/

namespace Sys2Proof.Machine
open Sys2Proof

def exec (i : Instr) (s : State) : Host.Outcome State Fault Refusal :=
  match i with
  | .quant imm => Sys2Proof.Machine.execQuant imm s
  | .fadein imm => Sys2Proof.Machine.execFadein imm s
  | .fadeout => Sys2Proof.Machine.execFadeout s

end Sys2Proof.Machine
end

