-- ==== Sys2Proof/Machine/Bus.lean ====
section
/-! DEFINITION. The register window: which access has a meaning, what each register reads as, what a write does, and
command dispatch (20_memory.md R40 to R52, 30_encoding.md R69). -/

namespace Sys2Proof.Machine

open Sys2Proof

/-- The offset of a register in the window (20_memory.md R40). -/
def Reg.offset : Reg → Nat
  | .ctrl => 0x00
  | .status => 0x04
  | .cmd => 0x08
  | .out => 0x0C
  | .period => 0x10
  | .fade => 0x14
  | .lastq => 0x18
  | .reserved => 0x1C

/-- The register at a word index of the window (20_memory.md R40). -/
def regAtIndex : Nat → Option Reg
  | 0 => some .ctrl
  | 1 => some .status
  | 2 => some .cmd
  | 3 => some .out
  | 4 => some .period
  | 5 => some .fade
  | 6 => some .lastq
  | 7 => some .reserved
  | _ => none

/-- The register an access reaches: "one 32-bit read or one 32-bit write at an offset that is a multiple of 4 inside
the window"; any other access is refused (20_memory.md R42). -/
def accessReg (a : Access) : Except Refusal Reg :=
  if a.width ≠ .w32 then .error .accessWidth
  else if a.off < 0 then .error .accessOutsideWindow
  else if a.off % 4 ≠ 0 then .error .accessMisaligned
  else
    match regAtIndex (a.off.toNat / 4) with
    | some r => .ok r
    | none => .error .accessOutsideWindow

/-- The access at a bus address: its offset from BASE (00_scope.md R12, 20_memory.md R40). -/
def accessAt (p : Params) (addr : Nat) (width : AccessWidth) (op : AccessOp) : Access :=
  { off := (addr : Int) - (p.base : Int), width := width, op := op }

/-- The value `BusRead` of a register returns (20_memory.md R44 to R51). -/
def regValue (r : Reg) (s : State) : Word :=
  match r with
  | .ctrl => ctrlWord s
  | .status => statusWord s
  | .cmd => 0
  | .out =>
    match s.outq with
    | [] => 0
    | p :: _ => pack p
  | .period => zext32 (half s.cfg.period)
  | .fade => concat (half s.cfg.silence) (half s.cfg.fadeSize)
  | .lastq => zext32 s.lastq
  | .reserved => 0

/-- The state `BusRead` of a register leaves: OUT pops, and no other read has a side effect (20_memory.md R47, R59). -/
def afterRead (r : Reg) (s : State) : State :=
  match r with
  | .out => pop s
  | .ctrl | .status | .cmd | .period | .fade | .lastq | .reserved => s

/-- A write to CTRL (20_memory.md R44). -/
def writeCtrl (v : Word) (s : State) : State :=
  if v.getLsbD 31 then resetBlock s
  else if s.err then s
  else if s.engine ≠ .idle then raiseError .ctrlBusy s
  else { s with mode := modeOfBit (v.getLsbD 0) }

/-- `Dispatch(v)` (30_encoding.md R69). The checks that come before decoding stand in `whenReady`, in each meaning and
here for the illegal words. -/
def dispatch (v : Word) (s : State) : Host.Outcome State Fault Refusal :=
  match decode v with
  | .ok i => exec i s
  | .error _ => whenReady s fun s => .next (raiseError .illegalCmd s)

/-- `BusWrite` of a register (20_memory.md R44 to R52). -/
def writeReg (r : Reg) (v : Word) (s : State) : Host.Outcome State Fault Refusal :=
  match r with
  | .ctrl => .next (writeCtrl v s)
  | .cmd => dispatch v s
  | .status | .out | .period | .fade | .lastq | .reserved => .next s

end Sys2Proof.Machine
end

