-- ==== Sys2Proof/Machine/HostAgent.lean ====
section
/-! DEFINITION. The host: one access is one transition (20_memory.md R53), and the pseudo-instructions `waitidle` and
`drain` of a host program (30_encoding.md R67). -/

namespace Sys2Proof.Machine

open Sys2Proof

/-- `wr <REG>, <v>` (30_encoding.md R67). -/
def HostOp.wr (r : Reg) (v : Word) : HostOp := .access { off := r.offset, width := .w32, op := .write v }

/-- `rd <REG>` (30_encoding.md R67). -/
def HostOp.rd (r : Reg) : HostOp := .access { off := r.offset, width := .w32, op := .read }

/-- `cmd <command>` (30_encoding.md R67). -/
def HostOp.command (i : Instr) : HostOp := HostOp.wr .cmd (encode i)

/-- The host's list L after a read: the pair that a read of OUT pops is appended to it (70_reset_and_hazards.md R136). A
read of an empty OUT returns no pair (20_memory.md R47). -/
def pairsAfterRead (r : Reg) (s : State) : List Pair :=
  match r with
  | .out => s.pairsRead ++ s.outq.take 1
  | .ctrl | .status | .cmd | .period | .fade | .lastq | .reserved => s.pairsRead

/-- The access of a host to a register; the value a read returns is kept for the host, and so is a pair popped. -/
def regAccess (r : Reg) (op : AccessOp) (s : State) : Host.Outcome State Fault Refusal :=
  match op with
  | .read =>
    .next
      { afterRead r s with
        reads := s.reads ++ [{ reg := r, value := regValue r s }]
        pairsRead := pairsAfterRead r s }
  | .write v => writeReg r v s

/-- One host access (20_memory.md R42, R53). -/
def hostAccess (a : Access) (s : State) : Host.Outcome State Fault Refusal :=
  match accessReg a with
  | .ok r => regAccess r a.op s
  | .error e => .refused e

/-- Put an operation back at the head of the host's program. -/
def again (op : HostOp) (s : State) : State := { s with program := op :: s.program }

/-- One round of `waitidle`: read STATUS and leave when BUSY reads 0 (30_encoding.md R67). -/
def waitIdleRound (s : State) : State :=
  if (regValue .status s).getLsbD 0 then again .waitIdle s else s

/-- The first transition of a round of `drain`: read STATUS, then read OUT if OUT_VALID reads 1, leave if BUSY reads 0
(30_encoding.md R67). -/
def drainRound (s : State) : State :=
  if (regValue .status s).getLsbD 1 then again .drainTake s
  else if (regValue .status s).getLsbD 0 then again .drain s
  else s

/-- The second transition of a round of `drain`: read OUT and append its pair to L (30_encoding.md R67). -/
def drainTakeRound (s : State) : State :=
  again .drain { afterRead .out s with pairsRead := s.pairsRead ++ [unpack (regValue .out s)] }

/-- One transition of a host operation. -/
def hostOp (op : HostOp) (s : State) : Host.Outcome State Fault Refusal :=
  match op with
  | .access a => hostAccess a s
  | .busAccess addr width op => hostAccess (accessAt s.cfg addr width op) s
  | .waitIdle => .next (waitIdleRound s)
  | .drain => .next (drainRound s)
  | .drainTake => .next (drainTakeRound s)

/-- The host's turn. A host whose program is over makes no access. -/
def hostTurn (s : State) : Host.Outcome State Fault Refusal :=
  match s.program with
  | [] => .next s
  | op :: rest => hostOp op { s with program := rest }

end Sys2Proof.Machine
end

