-- ==== Sys2Proof/Machine/Turns.lean ====
section
/-! DEFINITION. One transition of the model: a host access, an engine step, or a power-on reset (20_memory.md R53,
70_reset_and_hazards.md R120), in the order that State holds. -/

namespace Sys2Proof.Machine

open Sys2Proof

/-- Which transition is next: the first of `turns`. After the last of them the engine moves whenever it has a step and
the host otherwise, which is weakly fair to the engine (20_memory.md R53; log entry 1). -/
def nextTurn (s : State) : Turn :=
  match s.turns with
  | t :: _ => t
  | [] => if EngineReady s then .engine else .host

/-- The state with the turn taken off the list. -/
def takeTurn (s : State) : State := { s with turns := s.turns.tail }

/-- Take a turn. -/
def turn (t : Turn) (s : State) : Host.Outcome State Fault Refusal :=
  match t with
  | .host => hostTurn s
  | .engine => .next (engineTurn s)
  | .powerOn => .next (resetBlock s)

/-- One transition. A block with an illegal parameter set does not exist (00_scope.md R13). -/
def transition (s : State) : Host.Outcome State Fault Refusal :=
  if s.cfg.Legal then turn (nextTurn s) (takeTurn s) else .refused .illegalParameters

/-- The state in which a turn is the next one taken. -/
def withTurn (t : Turn) (s : State) : State := { s with turns := t :: s.turns }

/-- The state in which the host moves next, with an operation of its program. -/
def withHostOp (op : HostOp) (s : State) : State :=
  { s with turns := .host :: s.turns, program := op :: s.program }

/-- The state in which the host's next access, taken at once, is a write of `v` to CMD. -/
def withCommandWrite (v : Word) (s : State) : State := withHostOp (HostOp.wr .cmd v) s

end Sys2Proof.Machine
end

