-- ==== Sys2Proof/Machine/Step.lean ====
section
/-! DEFINITION. The step of the machine, and the state in which a given command is the next to run. -/

namespace Sys2Proof.Machine

open Sys2Proof

/-- One step: one transition (20_memory.md R53). -/
def step (s : State) : Host.Outcome State Fault Refusal := transition s

/-- The block fetches nothing: a command "takes effect at the CMD write that carries it" (20_memory.md R57). So the
next step is the host's, and its access is the CMD write of the word (log entry 4). -/
def State.withFetchWord (s : State) (nbits w : Nat) : State := withCommandWrite (tableWord nbits w) s

end Sys2Proof.Machine
end

