-- ==== Sys2Proof/Machine/Assembler.lean ====
section
/-! DEFINITION. The assembler syntax of the commands (30_encoding.md R66): one command a line, its mnemonic in either
case, its operand a decimal or `0x` hex integer. No hardware meaning (92_eei_decisions.md D35). -/

namespace Sys2Proof.Machine

open Sys2Proof

/-- The operand `<s>` as it is written. -/
inductive AsmOperand where
  | dec (n : Int)
  | hex (n : Int)
deriving DecidableEq, Repr

/-- A parsed line. -/
inductive AsmCommand where
  | quant (s : AsmOperand)
  | fadein (s : AsmOperand)
  | fadeout
deriving DecidableEq, Repr

/-- "`<s>` is a decimal or `0x` hex integer in [-32768, 32767]; an assembler rejects any other value. A hex value in
[0x8000, 0xFFFF] stands for its two's-complement bit pattern" (30_encoding.md R66). -/
def AsmOperand.wf : AsmOperand → Bool
  | .dec n => decide (-32768 ≤ n ∧ n ≤ 32767)
  | .hex n => decide (-32768 ≤ n ∧ n ≤ 65535)

/-- `s & 0xFFFF` (30_encoding.md R66). -/
def AsmOperand.imm : AsmOperand → Half
  | .dec n => BitVec.ofInt 16 n
  | .hex n => BitVec.ofInt 16 n

/-- The command of a parsed line, unless its operand is rejected (30_encoding.md R66). -/
def AsmCommand.instr : AsmCommand → Option Instr
  | .quant s => if s.wf then some (.quant s.imm) else none
  | .fadein s => if s.wf then some (.fadein s.imm) else none
  | .fadeout => some .fadeout

/-- The word of a parsed line (30_encoding.md R66). -/
def assemble (c : AsmCommand) : Option Word := c.instr.map encode

/-- The value of a digit in a base of at most 16. -/
def digitValue (base : Nat) (c : Char) : Option Nat :=
  let n := c.toNat
  let d := if 48 ≤ n ∧ n ≤ 57 then some (n - 48) else if 97 ≤ n ∧ n ≤ 102 then some (n - 87)
    else if 65 ≤ n ∧ n ≤ 70 then some (n - 55) else none
  d.bind fun d => if d < base then some d else none

/-- The value of digits after the value `acc` of those before them. -/
def digitsFrom (base : Nat) (acc : Nat) : List Char → Option Nat
  | [] => some acc
  | c :: cs =>
    match digitValue base c with
    | some d => digitsFrom base (base * acc + d) cs
    | none => none

/-- A number of at least one digit. -/
def parseDigits (base : Nat) : List Char → Option Nat
  | [] => none
  | cs => digitsFrom base 0 cs

/-- An unsigned operand, negated if `neg`. -/
def parseMagnitude (neg : Bool) (cs : List Char) : Option AsmOperand :=
  let signed := fun (n : Nat) => if neg then -(n : Int) else (n : Int)
  match cs with
  | '0' :: 'x' :: hs => (parseDigits 16 hs).map fun n => .hex (signed n)
  | ds => (parseDigits 10 ds).map fun n => .dec (signed n)

/-- An operand as it is written. -/
def parseOperand : List Char → Option AsmOperand
  | '-' :: cs => parseMagnitude true cs
  | cs => parseMagnitude false cs

/-- A character in lower case: "Mnemonics are case-insensitive" (30_encoding.md R66). -/
def lowerChar (c : Char) : Char := if 65 ≤ c.toNat ∧ c.toNat ≤ 90 then Char.ofNat (c.toNat + 32) else c

/-- The words of a line, split at spaces; `word` is the one being read, backwards. -/
def splitWords (word : List Char) : List Char → List (List Char)
  | [] => if word.isEmpty then [] else [word.reverse]
  | ' ' :: cs => if word.isEmpty then splitWords [] cs else word.reverse :: splitWords [] cs
  | c :: cs => splitWords (c :: word) cs

/-- A line as a command (30_encoding.md R66). -/
def parseCommand (line : List Char) : Option AsmCommand :=
  match splitWords [] line with
  | [m] => if m.map lowerChar = ['f', 'a', 'd', 'e', 'o', 'u', 't'] then some .fadeout else none
  | [m, s] =>
    if m.map lowerChar = ['q', 'u', 'a', 'n', 't'] then (parseOperand s).map .quant
    else if m.map lowerChar = ['f', 'a', 'd', 'e', 'i', 'n'] then (parseOperand s).map .fadein
    else none
  | _ => none

/-- The word of a line of assembler text (30_encoding.md R66). -/
def assembleLine (line : List Char) : Option Word := (parseCommand line).bind assemble

end Sys2Proof.Machine
end

