-- ==== Sys2Proof/Machine/Clip.lean ====
section
/-! DEFINITION. The host's program for a clip (70_reset_and_hazards.md R125, R127), for the use of host programs; the
block itself knows no clip. -/

namespace Sys2Proof.Machine

open Sys2Proof

/-- The CTRL write that selects a mode: 0x0000_0000 for `PIO`, 0x0000_0001 for `PWM` (70_reset_and_hazards.md R125). -/
def modeWord (m : Mode) : Word := (0 : BitVec 31) ++ BitVec.ofBool m.bit

/-- `cmd <command> ; drain(L)` (70_reset_and_hazards.md R127). -/
def commandAndDrain (i : Instr) : List HostOp := [HostOp.command i, .drain]

/-- The sequence that produces a clip of the samples `s0 :: rest` (70_reset_and_hazards.md R127). -/
def clipProgram (m : Mode) (s0 : Half) (rest : List Half) : List HostOp :=
  [HostOp.wr .ctrl (modeWord m)] ++ commandAndDrain (.fadein s0)
    ++ (s0 :: rest).flatMap (fun s => commandAndDrain (.quant s)) ++ commandAndDrain .fadeout ++ [HostOp.rd .status]

/-- "Then STATUS is read to check that ERR = 0": the check, on the value of that read (70_reset_and_hazards.md R127). -/
def clipChecked (s : State) : Bool :=
  match s.reads.getLast? with
  | some x => decide (x.reg = .status) && !x.value.getLsbD 3
  | none => false

/-- "If it is, L holds" the clip's pairs; otherwise the host must not emit them (70_reset_and_hazards.md R126, R127). -/
def clipPairs (s : State) : Option (List Pair) := if clipChecked s then some s.pairsRead else none

end Sys2Proof.Machine
end

