-- ==== Sys2Proof/WellFormed.lean ====
section
/-! DEFINITION. What is well formed: an instruction, a command word, and a host access. An ill-formed word is an illegal
command, which the machine takes with a defined effect; an ill-formed access is refused. -/

namespace Sys2Proof

open Sys2Proof.Machine

/-- A sample lies in [-32768, 32767] (30_encoding.md R62). Every value of the operand's type does, so that no check can
fail: the field IMM has exactly the 65536 patterns of a sample. -/
def Instr.wf : Instr → Bool
  | .quant imm => decide (-32768 ≤ s16 imm ∧ s16 imm ≤ 32767)
  | .fadein imm => decide (-32768 ≤ s16 imm ∧ s16 imm ≤ 32767)
  | .fadeout => true

/-- A word that spells a command: some row of the opcode table matches it (30_encoding.md R63). -/
def isCommandWord (v : Word) : Bool := opcodeTable.any fun r => decide (r.Spells v)

end Sys2Proof

namespace Sys2Proof.Machine

/-- "one 32-bit read or one 32-bit write at an offset that is a multiple of 4 inside the window" (20_memory.md R42). -/
def Access.wf (a : Access) : Bool :=
  decide (a.width = .w32 ∧ 0 ≤ a.off ∧ a.off < 32 ∧ a.off % 4 = 0)

end Sys2Proof.Machine
end

