-- ==== Sys2Proof/Safety.lean ====
section
/-! DEFINITION. What holds in every reachable state (10_state.md R35), what a ramp in progress keeps (41_ramp.md R81 to
R88), which pairs a command has left to push (R84), and when a run is over, its result, and when it is clean
(70_reset_and_hazards.md R136). -/

namespace Sys2Proof.Machine

open Sys2Proof

/-- A word of a pair that is neither 0 nor PERIOD or more: in [1, PERIOD-1] (40_quantizer.md R72). -/
abbrev WordInRange (p : Params) (w : Half) : Prop := 1 ≤ w.toNat ∧ w.toNat ≤ p.period - 1

/-- Both words of a pair lie in [1, PERIOD-1] (40_quantizer.md R74, 41_ramp.md R88). -/
abbrev PairInRange (p : Params) (x : Pair) : Prop := WordInRange p x.w1 ∧ WordInRange p x.w2

/-- The accumulator is of the type that RAMP_ARITH fixes (41_ramp.md R80). -/
def RampAcc.HasArith : RampAcc → RampArith → Prop
  | .binary32 _ _, a => a = .binary32
  | .exact _ _, a => a = .exact

/-- The engine's control state is one that 10_state.md R25 allows. A pair held by `Emit1` is that of the last sample, and
"a later MODE change cannot alter it" (40_quantizer.md R76). A fade-out starts from a sample (41_ramp.md R87). -/
def EngineWf (s : State) : Prop :=
  match s.engine with
  | .idle => True
  | .emit1 p => s.lastqV = true ∧ p = payloadPair s.cfg s.mode s.lastq
  | .ramp kind k r =>
    k < s.cfg.fadeSize ∧ r.HasArith s.cfg.rampArith ∧ (kind = .fadeOut → s.lastqV = true)

/-- The invariants of 10_state.md R35, with the parameter set legal (00_scope.md R13) and the engine's control state as
R25 gives it. -/
structure State.Inv (s : State) : Prop where
  legal     : s.cfg.Legal
  queueFits : s.outq.length ≤ s.cfg.outDepth
  errIdle   : s.err = true → s.engine = .idle
  causeErr  : s.cause ≠ .none ↔ s.err = true
  noSample  : s.lastqV = false → s.lastq = 0
  sample    : s.lastqV = true → WordInRange s.cfg s.lastq
  engineWf  : EngineWf s

/-- The endpoints of a ramp (41_ramp.md R81): a fade-in goes from SILENCE to a quantized sample, a fade-out from
`lastq` to SILENCE. -/
def RampEnds (s : State) (kind : RampKind) (start stop : Nat) : Prop :=
  match kind with
  | .fadeIn => start = s.cfg.silence ∧ 1 ≤ stop ∧ stop ≤ s.cfg.period - 1
  | .fadeOut => start = s.lastq.toNat ∧ stop = s.cfg.silence

/-- `start - k * D / N` with `D = start - end`: the exact value of a Distance ramp after `k` steps (41_ramp.md R88). -/
def idealValue (p : Params) (start stop k : Nat) : Rat :=
  (start : Rat) - (k : Rat) * (((start : Rat) - (stop : Rat)) / (p.fadeSize : Rat))

/-- Two rationals at most `e` apart. -/
abbrev Near (x y e : Rat) : Prop := x - y ≤ e ∧ y - x ≤ e

/-- A ramp in exact arithmetic is at its exact value (41_ramp.md R88). -/
def ExactTrack (s : State) : Prop :=
  match s.engine with
  | .ramp kind k (.exact acc step) =>
    ∃ start stop, RampEnds s kind start stop ∧ acc = idealValue s.cfg start stop k
      ∧ step = ((start : Rat) - (stop : Rat)) / (s.cfg.fadeSize : Rat)
  | _ => True

/-- A ramp in binary32 is near its exact value: at the default parameters each step adds an error of at most 2^-11 to
the accumulator, and the step itself is within 2^-20 (41_ramp.md R80, R88). -/
def BinaryTrack (s : State) : Prop :=
  match s.engine with
  | .ramp kind k (.binary32 acc step) =>
    ∃ start stop, RampEnds s kind start stop
      ∧ Near acc.toRat (idealValue s.cfg start stop k) ((k : Rat) / (2 ^ 11 : Nat))
      ∧ Near step.toRat (((start : Rat) - (stop : Rat)) / (s.cfg.fadeSize : Rat)) (1 / (2 ^ 20 : Nat))
  | _ => True

/-- Every queued word lies in [1, PERIOD-1], and no ramp has left the word range (41_ramp.md R88). -/
structure CleanRamps (s : State) : Prop where
  words   : ∀ x ∈ s.outq, PairInRange s.cfg x
  inRange : s.cause ≠ .rampRange

/-- What holds in every reachable state of a block with exact Distance ramps (41_ramp.md R88). -/
structure ExactInv (s : State) : Prop where
  base     : s.Inv
  arith    : s.cfg.rampArith = .exact
  stepForm : s.cfg.rampStepForm = .distance
  track    : ExactTrack s
  clean    : CleanRamps s

/-- What holds in every reachable state of a block with the default PERIOD, binary32 and Distance ramps
(41_ramp.md R88). -/
structure DefaultInv (s : State) : Prop where
  base     : s.Inv
  period   : s.cfg.period = 5668
  arith    : s.cfg.rampArith = .binary32
  stepForm : s.cfg.rampStepForm = .distance
  track    : BinaryTrack s
  clean    : CleanRamps s

/-- The next transition is the host's write of `v` to a register, at its offset or at its bus address
(20_memory.md R40, R42). -/
def HostWrites (s : State) (r : Reg) (v : Word) : Prop :=
  nextTurn s = .host ∧ ∃ rest, s.program = HostOp.wr r v :: rest
    ∨ s.program = .busAccess (s.cfg.base + r.offset) .w32 (.write v) :: rest

/-- The next transition is a reset: the reset input, or a write to CTRL with bit 31 = 1 (70_reset_and_hazards.md R120). -/
def ResetNext (s : State) : Prop :=
  nextTurn s = .powerOn ∨ ∃ v, HostWrites s .ctrl v ∧ v.getLsbD 31 = true

/-- A host operation that 20_memory.md R42 gives a meaning. `waitidle` and `drain` make well-formed accesses only. -/
def HostOp.wf (p : Params) : HostOp → Bool
  | .access a => a.wf
  | .busAccess addr width op => (accessAt p addr width op).wf
  | .waitIdle | .drain | .drainTake => true

/-- How many pairs the command in progress has left to push (10_state.md R25, R34). -/
def pairsLeft (s : State) : Nat :=
  match s.engine with
  | .idle => 0
  | .emit1 _ => 1
  | .ramp _ k _ => s.cfg.fadeSize - k

/-- The pairs that `n` engine steps of a ramp push, one a step in step order, up to the first value out of range
(41_ramp.md R84). -/
def rampPairs (p : Params) (kind : RampKind) (mode : Mode) : Nat → RampAcc → List Pair
  | 0, _ => []
  | n + 1, r =>
    if RampOutOfRange p r.trunc then []
    else fadePair p kind mode r.trunc.toNat :: rampPairs p kind mode n r.advance

/-- The pairs the command in progress has left to push, in their order: the pair held, or those of the steps of the ramp
that are left (40_quantizer.md R76, 41_ramp.md R84). -/
def pendingPairs (s : State) : List Pair :=
  match s.engine with
  | .idle => []
  | .emit1 p => [p]
  | .ramp kind k r => rampPairs s.cfg kind s.mode (s.cfg.fadeSize - k) r

/-- "A run of a host program is over" (70_reset_and_hazards.md R136). -/
abbrev State.Over (s : State) : Prop := s.program = [] ∧ s.engine = .idle ∧ s.outq = []

/-- The result of a run: "the host's list L of pairs read from OUT, in order, together with the final STATUS value"
(70_reset_and_hazards.md R136). -/
structure RunResult where
  pairs  : List Pair
  status : Word
deriving DecidableEq, Repr

/-- The result of a run that is over; a run that is not has none (70_reset_and_hazards.md R136). -/
def State.result? (s : State) : Option RunResult :=
  if s.Over then some { pairs := s.pairsRead, status := regValue .status s } else none

/-- "A run is clean if the final `err = 0`" (70_reset_and_hazards.md R136). -/
abbrev State.Clean (s : State) : Prop := s.err = false

/-- The next state of an outcome, if it has one. -/
def nextState? (o : Host.Outcome State Fault Refusal) : Option State :=
  match o with
  | .next s => some s
  | .fault _ => none
  | .refused _ => none

end Sys2Proof.Machine
end

