-- ==== Sys2Proof/Certificates/Slice0/Obligations.lean ====
section
/-! DEFINITION. The statements for the provers. `withHostOp op s`, `withCommandWrite v s` and `withTurn t s` are `s` with
that host operation, that CMD write, or that turn the next one; `step` of it is told in terms of `s`. -/

open Sys2Proof Sys2Proof.Machine

/-! Reset and configuration -/

/-- 10_state.md R32: the value of every piece of state after either reset, and how it is seen. -/
def Obligations.ResetClearsEveryField : Prop :=
  ∀ s t : State, (s = State.reset ∨ s = resetBlock t) →
    s.mode = .dualPhase ∧ s.err = false ∧ s.cause = .none ∧ s.outq = [] ∧ s.engine = .idle ∧ s.lastq = 0
      ∧ s.lastqV = false ∧ regValue .ctrl s = 0 ∧ regValue .status s = 0 ∧ regValue .lastq s = 0

/-- Both reset events, whatever the state, give every field of the tuple its reset value and keep the configuration
(70_reset_and_hazards.md R120, R121). That a power-on reset also leaves the turns and the host's program, reads and pairs
as they are is the model's choice, log entry 9. -/
def Obligations.BothResetsResetAnyState : Prop :=
  ∀ (s : State) (v : Word), s.cfg.Legal →
    let r : State :=
      { s with mode := .dualPhase, err := false, cause := .none, outq := [], engine := .idle, lastq := 0, lastqV := false }
    step (withTurn .powerOn s) = .next r
      ∧ (v.getLsbD 31 = true → step (withHostOp (HostOp.wr .ctrl v) s) = .next r)

/-- 00_scope.md R13: only 10 ≤ PERIOD ≤ 65535 is legal; an illegal set is refused; a legal one has N ≥ 1, PERIOD in 16
bits and products below 2^32; the defaults are legal. -/
def Obligations.IllegalParametersAreRefused : Prop :=
  (∀ s : State, ¬ (10 ≤ s.cfg.clkHz / s.cfg.rateHz ∧ s.cfg.clkHz / s.cfg.rateHz ≤ 65535) →
      step s = .refused .illegalParameters ∧ ∀ i, exec i s = .refused .illegalParameters)
    ∧ (∀ p : Params, p.Legal → 1 ≤ p.fadeSize ∧ p.period < 2 ^ 16 ∧ 65535 * p.period < 2 ^ 32)
    ∧ Config.thisHardware.Legal ∧ Config.thisHardware.period = 5668

/-- 00_scope.md R7, R8, R9: PERIOD, N and SILENCE of this hardware, and of every parameter set. -/
def Obligations.ConstantsOfThisHardware : Prop :=
  (∀ p : Params, p.period = p.clkHz / p.rateHz ∧ p.fadeSize = p.period / 10 ∧ p.silence = p.period / 2)
    ∧ Config.thisHardware.period = 5668 ∧ Config.thisHardware.fadeSize = 566 ∧ Config.thisHardware.silence = 2834

/-- 10_state.md R20: the parameters are configuration, "no step changes them". -/
def Obligations.NoStepChangesTheConfiguration : Prop :=
  ∀ s t : State, step s = .next t → t.cfg = s.cfg

/-! Decoding -/

/-- 95_test_vectors.md section 4: words written out from the encodings of 30_encoding.md R63, and what they decode to. -/
def Obligations.SampleWordsDecode : Prop :=
  decode 0x00018000 = .ok (.quant 0x8000) ∧ decode 0x0001FFFF = .ok (.quant 0xFFFF)
    ∧ decode 0x00027FFF = .ok (.fadein 0x7FFF) ∧ decode 0x00030000 = .ok .fadeout
    ∧ decode 0x00000000 = .error .opUnassigned ∧ decode 0x00030001 = .error .immNonzero
    ∧ decode 0x00110000 = .error .rsvNonzero

/-- 30_encoding.md R68: `Decode`, by the fields of the word read as numbers. -/
def Obligations.DecodeByFields : Prop :=
  ∀ v : Word,
    let rsv := v.toNat / 2 ^ 20
    let op := v.toNat / 2 ^ 16 % 16
    let imm := v.toNat % 2 ^ 16
    (rsv ≠ 0 → ∃ e, decode v = .error e)
      ∧ (rsv = 0 → op = 1 → decode v = .ok (.quant (BitVec.ofNat 16 imm)))
      ∧ (rsv = 0 → op = 2 → decode v = .ok (.fadein (BitVec.ofNat 16 imm)))
      ∧ (rsv = 0 → op = 3 → imm = 0 → decode v = .ok .fadeout)
      ∧ (rsv = 0 → op = 3 → imm ≠ 0 → ∃ e, decode v = .error e)
      ∧ (rsv = 0 → op ≠ 1 → op ≠ 2 → op ≠ 3 → ∃ e, decode v = .error e)

/-- 30_encoding.md R63: the rows of the table; a word decodes to an instruction iff it matches exactly one row, which is
that instruction's; no two rows overlap. -/
def Obligations.WordDecodesIffOneRowMatches : Prop :=
  opcodeTable = [⟨0x00010000, 0xFFFF0000⟩, ⟨0x00020000, 0xFFFF0000⟩, ⟨0x00030000, 0xFFFFFFFF⟩]
    ∧ (∀ v i, decode v = .ok i → opRow i ∈ opcodeTable ∧ (opRow i).Spells v)
    ∧ (∀ v, ∀ r ∈ opcodeTable, r.Spells v → ∃ i, decode v = .ok i ∧ opRow i = r)
    ∧ (∀ v, ∀ r ∈ opcodeTable, ∀ r' ∈ opcodeTable, r.Spells v → r'.Spells v → r = r')

/-- 30_encoding.md R60 to R63, 20_memory.md R43: encoding and decoding are inverse, on words and on the little-endian
byte lanes of a word, for every instruction with every operand. -/
def Obligations.DecodeEncodeRoundTrip : Prop :=
  (∀ i : Instr, i.wf = true → decode (encode i) = .ok i)
    ∧ (∀ v i, decode v = .ok i → encode i = v ∧ i.wf = true)
    ∧ (∀ v, decodeBytes (bytesOfWord v) = decode v)
    ∧ (∀ i : Instr, i.wf = true → decodeTableWord 32 (encode i).toNat = some i)

/-- 30_encoding.md R66: a decimal operand in [-32768, 32767], or a hex one that is there or in [0x8000, 0xFFFF], is
assembled into the word whose IMM is `s & 0xFFFF`; any other is rejected. -/
def Obligations.AssemblerEncodesOperands : Prop :=
  ∀ n : Int,
    let w (op : Nat) : Word := BitVec.ofNat 32 (op * 2 ^ 16 + (n % 65536).toNat)
    (-32768 ≤ n ∧ n ≤ 32767 →
        assemble (.quant (.dec n)) = some (w 1) ∧ assemble (.fadein (.dec n)) = some (w 2)
          ∧ ∃ imm, decode (w 1) = .ok (.quant imm) ∧ s16 imm = n)
      ∧ (¬ (-32768 ≤ n ∧ n ≤ 32767) → assemble (.quant (.dec n)) = none ∧ assemble (.fadein (.dec n)) = none)
      ∧ (-32768 ≤ n ∧ n ≤ 65535 →
        assemble (.quant (.hex n)) = some (w 1) ∧ assemble (.fadein (.hex n)) = some (w 2))
      ∧ (¬ (-32768 ≤ n ∧ n ≤ 65535) → assemble (.quant (.hex n)) = none ∧ assemble (.fadein (.hex n)) = none)
      ∧ assemble .fadeout = some 0x00030000

/-! The step and command dispatch -/

/-- 20_memory.md R46, R57: where the host moves next and its operation is a CMD write of a word that decodes to an
instruction, at the register's offset or its bus address, the step is that instruction's meaning, in the state with the
turn and the operation taken; and `withFetchWord`, the model's own (log entry 4), is such a state. -/
def Obligations.StepRunsTheDecodedCommand : Prop :=
  (∀ (s : State) (rest : List HostOp) (v : Word) (i : Instr), s.cfg.Legal → nextTurn s = .host →
      (s.program = HostOp.wr .cmd v :: rest
        ∨ s.program = .busAccess (s.cfg.base + 8) .w32 (.write v) :: rest) →
      decode v = .ok i → step s = exec i { s with turns := s.turns.tail, program := rest })
    ∧ (∀ (s : State) (nbits w : Nat) (i : Instr), s.cfg.Legal → decodeTableWord nbits w = some i →
      step (s.withFetchWord nbits w) = exec i s)

/-- 30_encoding.md R69: command dispatch of any word, with its checks in their order. -/
def Obligations.CommandDispatch : Prop :=
  ∀ (s : State) (v : Word), s.cfg.Legal →
    step (withCommandWrite v s) = .next
      (if s.err = true then s
       else if s.engine ≠ .idle then { s with err := true, cause := .cmdBusy, engine := .idle }
       else match decode v with
        | .error _ => { s with err := true, cause := .illegalCmd, engine := .idle }
        | .ok (.quant imm) => acceptQuant (s16 imm) s
        | .ok (.fadein imm) => acceptFadeIn (s16 imm) s
        | .ok .fadeout => acceptFadeOut s)

/-- 30_encoding.md R64: the three classes of illegal words, each raising ILLEGAL_CMD where dispatch accepts it. -/
def Obligations.IllegalWordsRaiseIllegalCmd : Prop :=
  ∀ (s : State) (v : Word), s.cfg.Legal → s.err = false → s.engine = .idle →
    (v.toNat / 2 ^ 20 ≠ 0 ∨ v.toNat / 2 ^ 16 % 16 = 0 ∨ 4 ≤ v.toNat / 2 ^ 16 % 16
      ∨ (v.toNat / 2 ^ 16 % 16 = 3 ∧ v.toNat % 2 ^ 16 ≠ 0)) →
    step (withCommandWrite v s) = .next { s with err := true, cause := .illegalCmd }

/-- 70_reset_and_hazards.md R128: any command, and any illegal word, written while the engine is busy raises CMD_BUSY,
is discarded, and stops the running command. -/
def Obligations.CommandWhileBusyIsAnError : Prop :=
  ∀ (s : State), s.cfg.Legal → s.err = false → s.engine ≠ .idle →
    (∀ i, exec i s = .next { s with err := true, cause := .cmdBusy, engine := .idle })
      ∧ (∀ v, step (withCommandWrite v s) = .next { s with err := true, cause := .cmdBusy, engine := .idle })

/-- The step, when it goes on: with a legal parameter set, exactly when the next transition is no ill-formed access
(20_memory.md R42, R53; 00_scope.md R13). -/
def Obligations.EveryWellFormedTransitionRuns : Prop :=
  ∀ s : State, (∃ t, step s = .next t) ↔
    s.cfg.Legal ∧ ∀ op rest, nextTurn s = .host → s.program = op :: rest → op.wf s.cfg = true

/-! QUANT -/

/-- 40_quantizer.md R71: `Quantize`, with its product in 32 bits. -/
def Obligations.QuantizeIsScaledSample : Prop :=
  ∀ (p : Params) (imm : Half), p.Legal →
    let u := (imm ^^^ 0x8000).toNat
    s16 imm + 32768 = u ∧ u * p.period < 2 ^ 32
      ∧ (quantize p (s16 imm)).toNat = if u * p.period / 65536 = 0 then 1 else u * p.period / 65536

/-- 40_quantizer.md R72: "Quantize(s) lies in [1, PERIOD-1] for every s". -/
def Obligations.QuantizeRange : Prop :=
  ∀ (p : Params) (s : Int), p.Legal → -32768 ≤ s → s ≤ 32767 →
    1 ≤ (quantize p s).toNat ∧ (quantize p s).toNat ≤ p.period - 1

/-- 40_quantizer.md R73: the laws of `Quantize`. -/
def Obligations.QuantizeLaws : Prop :=
  ∀ p : Params, p.Legal →
    (∀ s1 s2 : Int, -32768 ≤ s1 → s1 ≤ s2 → s2 ≤ 32767 → (quantize p s1).toNat ≤ (quantize p s2).toNat)
      ∧ (quantize p 0).toNat = p.silence
      ∧ (quantize p 32767).toNat = p.period - 1
      ∧ (∀ s : Int, -32768 ≤ s → s ≤ 32767 → ((quantize p s).toNat = 1 ↔ (s + 32768) * p.period < 2 * 65536))
      ∧ (p.period = 5668 → ∀ s : Int, -32768 ≤ s → s ≤ 32767 →
        ((quantize p s).toNat = 1 ↔ s ≤ -32745) ∧ (scaledSample p s = 0 ↔ s ≤ -32757))

/-- 40_quantizer.md R74: the payload pair of each mode, and that both its words lie in [1, PERIOD-1]. -/
def Obligations.PayloadPairWords : Prop :=
  ∀ (p : Params) (q : Half), p.Legal → 1 ≤ q.toNat → q.toNat ≤ p.period - 1 →
    payloadPair p .dualPhase q = ⟨q, BitVec.ofNat 16 (p.period - q.toNat)⟩ ∧ payloadPair p .dualChannel q = ⟨q, q⟩
      ∧ ∀ m, PairInRange p (payloadPair p m q)

/-- 40_quantizer.md R75: QUANT, accepted, writes `lastq` and `lastq_v` and holds the payload pair of the mode; it raises
nothing, whatever the queue holds, and changes nothing else. -/
def Obligations.QuantCompletes : Prop :=
  ∀ (imm : Half) (s : State), s.cfg.Legal → s.err = false → s.engine = .idle →
    ∃ q : Half,
      q.toNat = (if (imm.toInt + 32768).toNat * s.cfg.period / 65536 = 0 then 1
        else (imm.toInt + 32768).toNat * s.cfg.period / 65536)
      ∧ exec (.quant imm) s = .next
        { s with
          lastq := q
          lastqV := true
          engine := .emit1 (match s.mode with
            | .dualPhase => ⟨q, BitVec.ofNat 16 (s.cfg.period - q.toNat)⟩
            | .dualChannel => ⟨q, q⟩) }

/-- 40_quantizer.md R76: the engine step in `Emit1 p`. -/
def Obligations.EngineEmitsTheHeldPair : Prop :=
  ∀ (s : State) (p : Pair), s.cfg.Legal → s.err = false → s.engine = .emit1 p → s.outq.length < s.cfg.outDepth →
    step (withTurn .engine s) = .next { s with outq := s.outq ++ [p], engine := .idle }

/-! FADEIN and FADEOUT -/

/-- 41_ramp.md R82, R83: FADEIN starts the ramp from SILENCE to the quantized sample, FADEOUT with a sample the ramp
from `lastq` to SILENCE; the accumulator, the step and `k` are as the rules say, and nothing else changes. -/
def Obligations.FadeCommandsStartTheirRamps : Prop :=
  ∀ (imm : Half) (s : State), s.cfg.Legal → s.err = false → s.engine = .idle →
    let start (kind : RampKind) (a b : Int) : State :=
      let d : Int := match s.cfg.rampStepForm with
        | .distance => a - b
        | .target => b
      { s with engine := .ramp kind 0 (match s.cfg.rampArith with
          | .binary32 =>
            .binary32 (Binary32.fromInt a) (Binary32.div (Binary32.fromInt d) (Binary32.fromInt (s.cfg.period / 10 : Nat)))
          | .exact => .exact (a : Rat) ((d : Rat) / ((s.cfg.period / 10 : Nat) : Rat))) }
    exec (.fadein imm) s = .next (start .fadeIn (s.cfg.period / 2 : Nat) (quantize s.cfg imm.toInt).toNat)
      ∧ (s.lastqV = true → exec .fadeout s = .next (start .fadeOut s.lastq.toNat (s.cfg.period / 2 : Nat)))

/-- 70_reset_and_hazards.md R132: FADEOUT before any QUANT since reset raises NO_SAMPLE. -/
def Obligations.FadeoutWithoutSampleIsAnError : Prop :=
  ∀ s : State, s.cfg.Legal → s.err = false → s.engine = .idle → s.lastqV = false →
    exec .fadeout s = .next { s with err := true, cause := .noSample, engine := .idle }

/-- 41_ramp.md R84, R85: the engine step in a ramp. -/
def Obligations.EngineRampStep : Prop :=
  ∀ (s : State) (kind : RampKind) (k : Nat) (r : RampAcc), s.cfg.Legal → s.err = false → s.engine = .ramp kind k r →
    s.outq.length < s.cfg.outDepth →
    let v : Int := match r with
      | .binary32 acc _ => acc.trunc
      | .exact acc _ => truncRat acc
    let next : RampAcc := match r with
      | .binary32 acc d => .binary32 (Binary32.sub acc d) d
      | .exact acc d => .exact (acc - d) d
    let a : Half := BitVec.ofNat 16 v.toNat
    let b : Half := BitVec.ofNat 16 (s.cfg.period - v.toNat)
    let pair : Pair := match s.mode, kind with
      | .dualPhase, .fadeIn => ⟨b, a⟩
      | .dualPhase, .fadeOut => ⟨a, b⟩
      | .dualChannel, _ => ⟨a, a⟩
    step (withTurn .engine s) = .next
      (if v < 0 ∨ (s.cfg.period : Int) < v then { s with err := true, cause := .rampRange, engine := .idle }
       else { s with
        outq := s.outq ++ [pair]
        engine := if k + 1 = s.cfg.period / 10 then .idle else .ramp kind (k + 1) next })

/-- 41_ramp.md R84, R88, 60_exceptions.md R107: a ramp with room in the queue pushes one pair a step, each the fade pair of
that step's accumulator, and ends idle after its N-th; or it stops at the first value out of range with the pairs of the
steps before in the queue. -/
def Obligations.RampPushesNPairs : Prop :=
  ∀ (s : State) (kind : RampKind) (k : Nat) (r : RampAcc) (ts : List Turn), s.cfg.Legal → s.err = false →
    s.engine = .ramp kind k r → k < s.cfg.fadeSize →
    s.outq.length + (s.cfg.fadeSize - k) ≤ s.cfg.outDepth →
    s.turns = List.replicate (s.cfg.fadeSize - k) .engine ++ ts →
    ∃ t pushed, pushed = rampPairs s.cfg kind s.mode (s.cfg.fadeSize - k) r
      ∧ Host.Core.run Sys2Proof.core (s.cfg.fadeSize - k) s = .next t
      ∧ t.outq = s.outq ++ pushed ∧ t.engine = .idle ∧ t.turns = ts ∧ t.lastq = s.lastq
      ∧ ((t.err = false ∧ pushed.length = s.cfg.fadeSize - k)
        ∨ (t.err = true ∧ t.cause = .rampRange ∧ pushed.length < s.cfg.fadeSize - k))

/-- 41_ramp.md R88: the first value of a ramp is its start, in either arithmetic and either form of the step. -/
def Obligations.RampStartsAtItsStart : Prop :=
  ∀ (p : Params) (start stop : Nat), start ≤ 65535 → (rampInit p start stop).trunc = start

/-! Binary32 arithmetic -/

/-- 41_ramp.md R80: `RFromInt(i)` "is exact for every integer the rules convert", each below 2^24. -/
def Obligations.FromIntIsExact : Prop :=
  ∀ i : Int, i.natAbs < 2 ^ 24 → (Binary32.fromInt i).toRat = i ∧ (Binary32.fromInt i).trunc = i

/-- 41_ramp.md R80: a difference within the finite range is rounded to a nearest binary32 value, and of two nearest ones
to the one with an even last bit. -/
def Obligations.SubtractionRoundsToNearestEven : Prop :=
  ∀ a b c : Binary32, (a.units - b.units).natAbs ≤ (2 ^ 24 - 1) * 2 ^ 253 →
    ((Binary32.sub a b).units - (a.units - b.units)).natAbs ≤ (c.units - (a.units - b.units)).natAbs
      ∧ (((Binary32.sub a b).units - (a.units - b.units)).natAbs = (c.units - (a.units - b.units)).natAbs →
        c.units ≠ (Binary32.sub a b).units → (Binary32.sub a b).frac.getLsbD 0 = false)

/-- 41_ramp.md R80: a quotient within the finite range is rounded the same way. Both distances are told times the
divisor, in units of 2^-149. -/
def Obligations.DivisionRoundsToNearestEven : Prop :=
  ∀ a b c : Binary32, b.mag ≠ 0 → a.mag * 2 ^ 149 ≤ (2 ^ 24 - 1) * 2 ^ 253 * b.mag →
    let far (x : Binary32) : Nat := (x.units * b.units - a.units * 2 ^ 149).natAbs
    far (Binary32.div a b) ≤ far c
      ∧ (far (Binary32.div a b) = far c → c.units ≠ (Binary32.div a b).units →
        (Binary32.div a b).frac.getLsbD 0 = false)

/-- 41_ramp.md R80: "A subnormal difference is exact". -/
def Obligations.SubnormalDifferenceIsExact : Prop :=
  ∀ a b : Binary32, (a.units - b.units).natAbs < 2 ^ 23 → (Binary32.sub a b).toRat = a.toRat - b.toRat

/-- 41_ramp.md R88: a binary32 ramp is monotone: with a step of 0 or more no value is above the one before, with a step of
0 or less none is below it, wherever the difference is within the finite range. -/
def Obligations.BinaryRampIsMonotone : Prop :=
  ∀ acc d : Binary32, (acc.units - d.units).natAbs ≤ (2 ^ 24 - 1) * 2 ^ 253 →
    (0 ≤ d.units → (Binary32.sub acc d).units ≤ acc.units ∧ (Binary32.sub acc d).trunc ≤ acc.trunc)
      ∧ (d.units ≤ 0 → acc.units ≤ (Binary32.sub acc d).units ∧ acc.trunc ≤ (Binary32.sub acc d).trunc)

/-! The engine and the queue -/

/-- 10_state.md R33: the engine has a step exactly when `err = 0`, it is not idle and the queue has room; otherwise its
turn changes nothing. -/
def Obligations.EngineStepsExactlyWhenEnabled : Prop :=
  ∀ s : State, s.cfg.Legal → ∃ t, step (withTurn .engine s) = .next t
    ∧ (t ≠ s ↔ s.err = false ∧ s.engine ≠ .idle ∧ s.outq.length < s.cfg.outDepth)

/-- The model's choice of log entry 1: a turn on the list is taken as it is; with none left the engine moves whenever it
has a step, and the host otherwise, so the engine is fairly treated (20_memory.md R53). -/
def Obligations.EngineIsFairlyTreated : Prop :=
  (∀ s : State, s.cfg.Legal → s.turns = [] → s.err = false → s.engine ≠ .idle → s.outq.length < s.cfg.outDepth →
      step s = .next (engineStep s) ∧ engineStep s ≠ s)
    ∧ (∀ s : State, s.cfg.Legal → s.turns = [] →
      ¬ (s.err = false ∧ s.engine ≠ .idle ∧ s.outq.length < s.cfg.outDepth) → step s = hostTurn s)
    ∧ (∀ (s : State) (t : Turn), nextTurn (withTurn t s) = t)

/-- 10_state.md R24: only the engine appends, one pair, when there is room; only a host read of OUT removes, the head, and
the host gets it; a reset empties the queue (70_reset_and_hazards.md R121); nothing else changes it. -/
def Obligations.QueueIsFirstInFirstOut : Prop :=
  ∀ s t : State, step s = .next t →
    t.outq = s.outq
      ∨ (nextTurn s = .engine ∧ s.outq.length < s.cfg.outDepth ∧ ∃ p, t.outq = s.outq ++ [p])
      ∨ (nextTurn s = .host ∧ ∃ p, s.outq = p :: t.outq
        ∧ t.pairsRead = s.pairsRead ++ [p]
        ∧ (t.reads = s.reads ++ [⟨.out, p.w2 ++ p.w1⟩] ∨ t.reads = s.reads))
      ∨ (ResetNext s ∧ t.outq = [])

/-! The register window -/

/-- 10_state.md R22, 20_memory.md R45: STATUS, bit by bit, and that a read of it has no side effect. -/
def Obligations.StatusBits : Prop :=
  ∀ (s : State) (v : Word), s.cfg.Legal →
    let w := regValue .status s
    step (withHostOp (HostOp.rd .status) s) = .next { s with reads := s.reads ++ [⟨.status, w⟩] }
      ∧ step (withHostOp (HostOp.wr .status v) s) = .next s
      ∧ (w.getLsbD 0 = true ↔ s.engine ≠ .idle)
      ∧ (w.getLsbD 1 = true ↔ 1 ≤ s.outq.length)
      ∧ (w.getLsbD 2 = true ↔ s.outq.length = s.cfg.outDepth) ∧ w.getLsbD 3 = s.err ∧ w.getLsbD 4 = s.lastqV
      ∧ (w.extractLsb' 8 3).toNat = (match s.cause with
        | .none => 0
        | .illegalCmd => 1
        | .cmdBusy => 2
        | .noSample => 3
        | .rampRange => 4
        | .ctrlBusy => 5)
      ∧ ∀ i, (5 ≤ i ∧ i ≤ 7) ∨ (11 ≤ i ∧ i ≤ 31) → w.getLsbD i = false

/-- 20_memory.md R44: a read and a write of CTRL. -/
def Obligations.CtrlReadAndWrite : Prop :=
  ∀ (s : State) (v : Word), s.cfg.Legal →
    step (withHostOp (HostOp.rd .ctrl) s) = .next
        { s with reads := s.reads ++ [⟨.ctrl, match s.mode with
          | .dualPhase => 0
          | .dualChannel => 1⟩] }
      ∧ step (withHostOp (HostOp.wr .ctrl v) s) = .next
        (if v.getLsbD 31 = true then
          { s with mode := .dualPhase, err := false, cause := .none, outq := [], engine := .idle, lastq := 0, lastqV := false }
         else if s.err = true then s
         else if s.engine ≠ .idle then { s with err := true, cause := .ctrlBusy, engine := .idle }
         else { s with mode := if v.getLsbD 0 = false then .dualPhase else .dualChannel })

/-- 20_memory.md R47: a read of OUT pops the head pair, in error too, and reads 0 from an empty queue. -/
def Obligations.OutReadPops : Prop :=
  ∀ s : State, s.cfg.Legal →
    (s.outq = [] → step (withHostOp (HostOp.rd .out) s) = .next { s with reads := s.reads ++ [⟨.out, 0⟩] })
      ∧ (∀ p rest, s.outq = p :: rest → step (withHostOp (HostOp.rd .out) s) = .next
        { s with
          outq := rest
          reads := s.reads ++ [⟨.out, p.w2 ++ p.w1⟩]
          pairsRead := s.pairsRead ++ [p] })

/-- 20_memory.md R48, R49, R50, R51: the registers PERIOD, FADE and LASTQ and the reserved offset: what they read as, and
that reading them and writing them has no side effect. -/
def Obligations.ConstantAndReservedRegisters : Prop :=
  ∀ (s : State) (v : Word), s.cfg.Legal →
    let reads (r : Reg) (n : Nat) : Prop := ∃ w : Word, w.toNat = n
      ∧ step (withHostOp (HostOp.rd r) s) = .next { s with reads := s.reads ++ [⟨r, w⟩] }
    reads .period s.cfg.period ∧ reads .fade (s.cfg.silence * 2 ^ 16 + s.cfg.fadeSize) ∧ reads .lastq s.lastq.toNat
      ∧ reads .reserved 0
      ∧ (s.cfg.clkHz = 125000000 → s.cfg.rateHz = 22050 → reads .period 0x1624 ∧ reads .fade 0x0B120236)
      ∧ ∀ r, r = .period ∨ r = .fade ∨ r = .lastq ∨ r = .reserved → step (withHostOp (HostOp.wr r v) s) = .next s

/-- 20_memory.md R52: reserved bits read 0, a write to a read-only register is ignored, and CMD reads 0. -/
def Obligations.ReservedBitsAndReadOnlyRegisters : Prop :=
  ∀ (s : State) (v : Word), s.cfg.Legal →
    (∀ r, r = .status ∨ r = .out ∨ r = .period ∨ r = .fade ∨ r = .lastq → step (withHostOp (HostOp.wr r v) s) = .next s)
      ∧ step (withHostOp (HostOp.rd .cmd) s) = .next { s with reads := s.reads ++ [⟨.cmd, 0⟩] }
      ∧ (∀ i, 1 ≤ i → (regValue .ctrl s).getLsbD i = false)
      ∧ (∀ i, (5 ≤ i ∧ i ≤ 7) ∨ 11 ≤ i → (regValue .status s).getLsbD i = false)
      ∧ (v.getLsbD 31 = false →
        step (withHostOp (HostOp.wr .ctrl v) s) = step (withHostOp (HostOp.wr .ctrl (v &&& 1)) s))

/-- 20_memory.md R42: any access but an aligned 32-bit one inside the window is refused, at an offset and at an address. -/
def Obligations.OtherAccessesAreRefused : Prop :=
  ∀ (s : State), s.cfg.Legal →
    (∀ a : Access, (∃ e, step (withHostOp (.access a) s) = .refused e) ↔
        ¬ (a.width = .w32 ∧ 0 ≤ a.off ∧ a.off ≤ 28 ∧ a.off % 4 = 0))
      ∧ (∀ addr width op, (∃ e, step (withHostOp (.busAccess addr width op) s) = .refused e) ↔
        ¬ (width = .w32 ∧ s.cfg.base ≤ addr ∧ addr < s.cfg.base + 32 ∧ addr % 4 = 0))

/-- 20_memory.md R40: BASE is a multiple of 32, and an access at BASE plus a register's offset is one of that register. -/
def Obligations.WindowLayout : Prop :=
  ∀ (s : State) (op : AccessOp), s.cfg.base % 32 = 0
    ∧ ∀ r off, (r, off) ∈ [(Reg.ctrl, 0x00), (.status, 0x04), (.cmd, 0x08), (.out, 0x0C), (.period, 0x10), (.fade, 0x14),
        (.lastq, 0x18), (.reserved, 0x1C)] →
      hostOp (.busAccess (s.cfg.base + off) .w32 op) s = regAccess r op s

/-- 30_encoding.md R67: the transitions of `waitidle` and `drain`, each with the register it reads; `drain` ends with the
engine idle and the queue empty. -/
def Obligations.WaitidleAndDrainRounds : Prop :=
  ∀ s : State, s.cfg.Legal →
    step (withHostOp .waitIdle s) = .next (if s.engine ≠ .idle then { s with program := .waitIdle :: s.program } else s)
      ∧ step (withHostOp .drain s) = .next
        (if s.outq ≠ [] then { s with program := .drainTake :: s.program }
         else if s.engine ≠ .idle then { s with program := .drain :: s.program }
         else s)
      ∧ step (withHostOp .drainTake s) = .next
        { s with
          outq := s.outq.tail
          pairsRead := s.pairsRead ++ [s.outq.headD ⟨0, 0⟩]
          program := .drain :: s.program }

/-- 30_encoding.md R67, under the schedule of log entry 1 (an empty `turns`), which is fair to the engine (20_memory.md
R53): `drain` ends. It leaves the engine idle and the queue empty, and has appended to L the pairs of the queue and then
those the running command had left to push: the pair held, or the fade pairs of the ramp's successive accumulators. -/
def Obligations.DrainEmptiesTheBlock : Prop :=
  ∀ (s : State) (rest : List HostOp), s.Inv → s.turns = [] → s.program = .drain :: rest →
    ∃ n t, n ≤ 3 * pairsLeft s + 2 * s.outq.length + 1 ∧ Host.Core.run Sys2Proof.core n s = .next t
      ∧ t.program = rest ∧ t.engine = .idle ∧ t.outq = [] ∧ t.pairsRead = s.pairsRead ++ s.outq ++ pendingPairs s
      ∧ ((t.err = s.err ∧ t.cause = s.cause ∧ (pendingPairs s).length = pairsLeft s)
        ∨ (t.err = true ∧ t.cause = .rampRange ∧ (pendingPairs s).length < pairsLeft s))

/-! Errors -/

/-- 60_exceptions.md R101, R102, R104: a transition that sets `err` is one of the five of the table, with its cause; it
leaves the engine idle and the queue, the mode and the last sample as they were. -/
def Obligations.ErrorsHaveTheirCauses : Prop :=
  ∀ s t : State, s.err = false → step s = .next t → t.err = true →
    (t.engine = .idle ∧ t.outq = s.outq ∧ t.mode = s.mode ∧ t.lastq = s.lastq ∧ t.lastqV = s.lastqV)
      ∧ ((t.cause = .illegalCmd ∧ s.engine = .idle ∧ ∃ v e, HostWrites s .cmd v ∧ decode v = .error e)
        ∨ (t.cause = .cmdBusy ∧ s.engine ≠ .idle ∧ ∃ v, HostWrites s .cmd v)
        ∨ (t.cause = .noSample ∧ s.engine = .idle ∧ s.lastqV = false
          ∧ ∃ v, HostWrites s .cmd v ∧ decode v = .ok .fadeout)
        ∨ (t.cause = .rampRange ∧ nextTurn s = .engine
          ∧ ∃ kind k r, s.engine = .ramp kind k r ∧ (r.trunc < 0 ∨ (s.cfg.period : Int) < r.trunc))
        ∨ (t.cause = .ctrlBusy ∧ s.engine ≠ .idle ∧ ∃ v, HostWrites s .ctrl v ∧ v.getLsbD 31 = false))

/-- 60_exceptions.md R105: what happens while `err = 1`. -/
def Obligations.TransitionsWhileInError : Prop :=
  ∀ (s : State) (v : Word), s.cfg.Legal → s.err = true →
    step (withCommandWrite v s) = .next s
      ∧ (∀ i, exec i s = .next s)
      ∧ (v.getLsbD 31 = false → step (withHostOp (HostOp.wr .ctrl v) s) = .next s)
      ∧ (v.getLsbD 31 = true → step (withHostOp (HostOp.wr .ctrl v) s) = .next (resetBlock s))
      ∧ (∀ r, r ≠ .out → step (withHostOp (HostOp.rd r) s) = .next { s with reads := s.reads ++ [⟨r, regValue r s⟩] })
      ∧ step (withHostOp (HostOp.rd .out) s) = .next
        { s with
          outq := s.outq.tail
          reads := s.reads ++ [⟨.out, regValue .out s⟩]
          pairsRead := s.pairsRead ++ s.outq.take 1 }
      ∧ step (withTurn .engine s) = .next s

/-- 60_exceptions.md R108: once recorded, an error stays with its cause, until a reset. -/
def Obligations.ErrorLastsUntilReset : Prop :=
  ∀ s t : State, s.err = true → step s = .next t →
    (t.err = true ∧ t.cause = s.cause ∧ ¬ ResetNext s)
      ∨ (ResetNext s ∧ t.err = false ∧ t.cause = .none ∧ t.outq = [] ∧ t.lastqV = false)

/-! Whole-machine rules -/

/-- 10_state.md R21: the mode changes only by a CTRL write while the engine is idle and no error is recorded, or by a
reset. -/
def Obligations.ModeChangesOnlyWhileIdle : Prop :=
  ∀ s t : State, step s = .next t → t.mode ≠ s.mode →
    (s.err = false ∧ s.engine = .idle ∧ ∃ v, HostWrites s .ctrl v ∧ v.getLsbD 31 = false
        ∧ t.mode = (if v.getLsbD 0 = true then .dualChannel else .dualPhase))
      ∨ (ResetNext s ∧ t.mode = .dualPhase)

/-- 10_state.md R26: only an accepted QUANT writes `lastq` and `lastq_v`, and a reset clears them. -/
def Obligations.OnlyQuantWritesTheLastSample : Prop :=
  ∀ s t : State, step s = .next t → (t.lastq ≠ s.lastq ∨ t.lastqV ≠ s.lastqV) →
    (s.err = false ∧ s.engine = .idle ∧ ∃ v imm, HostWrites s .cmd v ∧ decode v = .ok (.quant imm)
        ∧ t.lastq = quantize s.cfg (s16 imm) ∧ t.lastqV = true)
      ∨ (ResetNext s ∧ t.lastq = 0 ∧ t.lastqV = false)

/-- The frame of the commands (40_quantizer.md R75, 41_ramp.md R86, R87, 60_exceptions.md R104): no command changes the
mode, the queue, the parameter set or the host's side, FADEIN and FADEOUT leave the last sample, QUANT and FADEIN
raise nothing but CMD_BUSY. -/
def Obligations.CommandFrame : Prop :=
  ∀ (i : Instr) (s t : State), exec i s = .next t →
    t.mode = s.mode ∧ t.outq = s.outq ∧ t.cfg = s.cfg ∧ t.turns = s.turns ∧ t.program = s.program ∧ t.reads = s.reads
      ∧ t.pairsRead = s.pairsRead
      ∧ ((∀ imm, i ≠ .quant imm) → t.lastq = s.lastq ∧ t.lastqV = s.lastqV)
      ∧ (s.engine = .idle → i ≠ .fadeout → t.err = s.err ∧ t.cause = s.cause)
      ∧ (s.engine ≠ .idle → t.lastq = s.lastq ∧ t.lastqV = s.lastqV)

/-- 10_state.md R35, with the control states that R25 allows: the invariants are kept by every step. -/
def Obligations.StepKeepsTheInvariant : Prop :=
  ∀ s t : State, s.Inv → step s = .next t → t.Inv

/-- The invariants of 10_state.md R35 hold after reset, and after the reset of any block with a legal parameter set. -/
def Obligations.ResetMeetsTheInvariant : Prop :=
  State.reset.Inv ∧ ∀ s : State, s.cfg.Legal → (resetBlock s).Inv

/-- 41_ramp.md R88, exact arithmetic: in a block with exact Distance ramps, at every legal parameter set, every step keeps
the accumulator at `start - k * D / N` and every queued word in [1, PERIOD-1], and raises no RAMP_RANGE. -/
def Obligations.StepKeepsExactRampsInRange : Prop :=
  ∀ s t : State, ExactInv s → step s = .next t → ExactInv t

/-- 41_ramp.md R88, exact arithmetic: the value a ramp pushes at step `k` is `trunc(start - k * D / N)`, where `D / N` is
the step it runs with; a descending ramp stays in [end, start], an ascending one in [start, end - 1], a level one at its
start. -/
def Obligations.ExactRampValues : Prop :=
  ∀ (s : State) (kind : RampKind) (k : Nat) (r : RampAcc), ExactInv s → s.engine = .ramp kind k r →
    ∃ (start stop : Nat) (acc d : Rat), r = .exact acc d ∧ RampEnds s kind start stop
      ∧ d = ((start : Rat) - (stop : Rat)) / (s.cfg.fadeSize : Rat)
      ∧ r.trunc = truncRat (idealValue s.cfg start stop k)
      ∧ (stop ≤ start → (stop : Int) ≤ r.trunc ∧ r.trunc ≤ start)
      ∧ (start < stop → (start : Int) ≤ r.trunc ∧ r.trunc ≤ (stop : Int) - 1)

/-- 41_ramp.md R88, binary32 at the default PERIOD: every step keeps every queued word in [1, PERIOD-1] and raises no
RAMP_RANGE; the accumulator stays near its exact value. -/
def Obligations.StepKeepsDefaultRampsInRange : Prop :=
  ∀ s t : State, DefaultInv s → step s = .next t → DefaultInv t

/-- 41_ramp.md R88, binary32 at the default PERIOD: every value pushed is in [1, PERIOD-1] and within 1 of the value exact
arithmetic gives between the endpoints whose step the ramp runs with, to within 2^-20; no two ends are that near. -/
def Obligations.BinaryRampIsNearExact : Prop :=
  ∀ (s : State) (kind : RampKind) (k : Nat) (r : RampAcc), DefaultInv s → s.engine = .ramp kind k r →
    1 ≤ r.trunc ∧ r.trunc ≤ 5667
      ∧ ∃ (start stop : Nat) (acc d : Binary32), r = .binary32 acc d ∧ RampEnds s kind start stop
        ∧ Near d.toRat (((start : Rat) - (stop : Rat)) / (s.cfg.fadeSize : Rat)) (1 / (2 ^ 20 : Nat))
        ∧ r.trunc - truncRat (idealValue s.cfg start stop k) ≤ 1
        ∧ truncRat (idealValue s.cfg start stop k) - r.trunc ≤ 1

/-- The two invariants of ramps hold after reset: of this hardware, and of a block with exact Distance ramps. -/
def Obligations.ResetMeetsTheRampInvariants : Prop :=
  DefaultInv State.reset
    ∧ ∀ s : State, s.cfg.Legal → s.cfg.rampArith = .exact → s.cfg.rampStepForm = .distance → ExactInv (resetBlock s)

/-- 70_reset_and_hazards.md R120, R121: the two reset events, whatever the state, have the same effect on the block: in
one transition every field of the state tuple is at its reset value, and the configuration is kept. -/
def Obligations.ResetEventsSetTheStateTuple : Prop :=
  ∀ (s : State) (v : Word), s.cfg.Legal →
    let isReset (t : State) : Prop :=
      t.mode = .dualPhase ∧ t.err = false ∧ t.cause = .none ∧ t.outq = [] ∧ t.engine = .idle ∧ t.lastq = 0
        ∧ t.lastqV = false ∧ t.cfg = s.cfg
    (∃ t, step (withTurn .powerOn s) = .next t ∧ isReset t)
      ∧ (v.getLsbD 31 = true → ∃ t, step (withHostOp (HostOp.wr .ctrl v) s) = .next t ∧ isReset t)

/-- 70_reset_and_hazards.md R136: a run is over exactly when the host's program is at its end, the engine idle and the queue
empty; a run that is over has the result of L and the final STATUS, whose ERR bit says whether it is clean. -/
def Obligations.RunResultIsPairsAndStatus : Prop :=
  ∀ s : State,
    (s.program = [] ∧ s.engine = .idle ∧ s.outq = [] →
        ∃ x, s.result? = some x ∧ x.pairs = s.pairsRead ∧ x.status = regValue .status s
          ∧ (s.Clean ↔ x.status.getLsbD 3 = false))
      ∧ (¬ (s.program = [] ∧ s.engine = .idle ∧ s.outq = []) → s.result? = none)
end

