-- ==== Sys2Proof/Laws/Binary32.lean ====
section
/-! SUPPORT. Rounding: the nearest integer, the magnitude of a pattern, and that one rounding gives a nearest binary32
value, the even one of two (41_ramp.md R80). -/

namespace Sys2Proof.Machine

/-! The nearest integer -/

/-- How far apart two numbers are. -/
def gap (a b : Nat) : Nat := ((a : Int) - (b : Int)).natAbs

theorem nearestEven_gap {num den : Nat} (h : 0 < den) : 2 * gap (nearestEven num den * den) num ≤ den := by
  have h1 := Nat.div_add_mod num den
  have h2 := Nat.mod_lt num h
  have h3 : (num / den + 1) * den = den * (num / den) + den := by ring
  have h4 : num / den * den = den * (num / den) := by ring
  unfold nearestEven gap
  split
  · rw [h4]; omega
  · split
    · rw [h3]; omega
    · split
      · rw [h4]; omega
      · rw [h3]; omega

theorem nearestEven_even_of_tie {num den : Nat} (h : 0 < den) (ht : 2 * gap (nearestEven num den * den) num = den) :
    nearestEven num den % 2 = 0 := by
  have h1 := Nat.div_add_mod num den
  have h2 := Nat.mod_lt num h
  have h3 : (num / den + 1) * den = den * (num / den) + den := by ring
  have h4 : num / den * den = den * (num / den) := by ring
  unfold nearestEven gap at *
  split at ht
  · rw [h4] at ht; omega
  · split at ht
    · rw [h3] at ht; omega
    · split at ht
      · rw [if_neg ‹_›, if_neg ‹_›, if_pos ‹_›]; assumption
      · rw [if_neg ‹_›, if_neg ‹_›, if_neg ‹_›]; omega

/-- Another integer is at least half a unit away. -/
theorem gap_of_ne {n j den num : Nat} (hn : 2 * gap (n * den) num ≤ den) (hj : j ≠ n) :
    den ≤ 2 * gap (j * den) num := by
  unfold gap at *
  rcases Nat.lt_or_gt_of_ne hj with h | h
  · have : (j + 1) * den ≤ n * den := Nat.mul_le_mul_right _ h
    rw [Nat.add_mul] at this
    omega
  · have : (n + 1) * den ≤ j * den := Nat.mul_le_mul_right _ h
    rw [Nat.add_mul] at this
    omega

/-- No integer is nearer than `nearestEven`. -/
theorem nearestEven_nearest {num den : Nat} (h : 0 < den) (j : Nat) :
    gap (nearestEven num den * den) num ≤ gap (j * den) num := by
  have h1 := nearestEven_gap (num := num) h
  by_cases hj : j = nearestEven num den
  · rw [hj]
  · have := gap_of_ne h1 hj
    omega

/-- Of two nearest integers `nearestEven` is the even one. -/
theorem nearestEven_even {num den : Nat} (h : 0 < den) {j : Nat} (hj : j ≠ nearestEven num den)
    (he : gap (nearestEven num den * den) num = gap (j * den) num) : nearestEven num den % 2 = 0 := by
  have h1 := nearestEven_gap (num := num) h
  have h2 := gap_of_ne h1 hj
  exact nearestEven_even_of_tie h (by omega)

theorem le_nearestEven {num den a : Nat} (h : 0 < den) (ha : a * den ≤ num) : a ≤ nearestEven num den := by
  have h1 : a ≤ num / den := (Nat.le_div_iff_mul_le h).2 ha
  unfold nearestEven
  split
  · exact h1
  · split
    · omega
    · split <;> omega

theorem nearestEven_le {num den b : Nat} (h : 0 < den) (hb : num ≤ b * den) : nearestEven num den ≤ b := by
  have h1 := Nat.div_add_mod num den
  have h2 := Nat.mod_lt num h
  have h3 : num / den ≤ b := Nat.div_le_of_le_mul (by rw [Nat.mul_comm]; exact hb)
  rcases Nat.lt_or_eq_of_le h3 with h4 | h4
  · unfold nearestEven
    split
    · omega
    · split
      · omega
      · split <;> omega
  · have : num % den = 0 := by
      subst h4
      have : num / den * den = den * (num / den) := by ring
      omega
    unfold nearestEven
    rw [this, if_pos (by omega)]
    omega

@[simp] theorem nearestEven_mul (n : Nat) {den : Nat} (h : 0 < den) : nearestEven (n * den) den = n :=
  Nat.le_antisymm (nearestEven_le h (Nat.le_refl _)) (le_nearestEven h (Nat.le_refl _))

/-! The magnitude of a pattern -/

/-- The magnitude, in units of 2^-149, of exponent and fraction read as one number. -/
def magOf (n : Nat) : Nat := if n / 2 ^ 23 = 0 then n else (2 ^ 23 + n % 2 ^ 23) * 2 ^ (n / 2 ^ 23 - 1)

theorem ofPattern_mag {n : Nat} (h : n ≤ Binary32.maxPattern) (sign : Bool) :
    (Binary32.ofPattern sign n).mag = magOf n := by
  have h1 : min n Binary32.maxPattern = n := Nat.min_eq_left h
  simp only [Binary32.mag, Binary32.ofPattern, h1, magOf, BitVec.toNat_ofNat]
  split
  · omega
  · rfl

/-- A significand `sig` with last place `e` is the pattern `e * 2^23 + sig`. -/
theorem magOf_significand {e sig : Nat} (h : sig ≤ 2 ^ 24) (h' : e = 0 ∨ 2 ^ 23 ≤ sig) :
    magOf (e * 2 ^ 23 + sig) = sig * 2 ^ e := by
  unfold magOf
  by_cases h1 : sig < 2 ^ 23
  · obtain rfl : e = 0 := by omega
    rw [if_pos (by omega)]
    omega
  · by_cases h2 : sig = 2 ^ 24
    · subst h2
      have h3 : (e * 2 ^ 23 + 2 ^ 24) / 2 ^ 23 = e + 2 := by omega
      have h4 : (e * 2 ^ 23 + 2 ^ 24) % 2 ^ 23 = 0 := by omega
      rw [h3, h4, if_neg (by omega), show e + 2 - 1 = e + 1 by omega, Nat.pow_succ]
      ring
    · have h3 : (e * 2 ^ 23 + sig) / 2 ^ 23 = e + 1 := by omega
      have h4 : (e * 2 ^ 23 + sig) % 2 ^ 23 = sig - 2 ^ 23 := by omega
      rw [h3, h4, if_neg (by omega), show e + 1 - 1 = e by omega, show 2 ^ 23 + (sig - 2 ^ 23) = sig by omega]

/-- Every magnitude is a significand of at most 24 bits times a power of two. -/
theorem mag_cases (x : Binary32) :
    x.mag < 2 ^ 24 ∨ ∃ m f, m < 2 ^ 24 ∧ x.mag = m * 2 ^ f := by
  have h := x.frac.isLt
  unfold Binary32.mag
  split
  · left; omega
  · right
    exact ⟨2 ^ 23 + x.frac.toNat, x.exp.val - 1, by omega, rfl⟩

/-- The largest finite magnitude. -/
theorem mag_le (x : Binary32) : x.mag ≤ (2 ^ 24 - 1) * 2 ^ 253 := by
  have h := x.frac.isLt
  have h' := x.exp.isLt
  unfold Binary32.mag
  split
  · omega
  · exact Nat.mul_le_mul (by omega) (Nat.pow_le_pow_right (by decide) (by omega))

/-! One rounding -/

open Binary32 in
/-- Where the last place of a magnitude lies: either all of its 24 bits are whole units, or the first bit is at
2^(23 + e). -/
theorem lastPlace_cases {num den : Nat} (h : 0 < den) :
    (lastPlace num den = 0 ∧ num < 2 ^ 24 * den)
      ∨ (2 ^ (23 + lastPlace num den) * den ≤ num ∧ num < 2 ^ (24 + lastPlace num den) * den) := by
  unfold lastPlace
  by_cases hq : num / den = 0
  · left
    have := (Nat.div_eq_zero_iff.1 hq).resolve_left (by omega)
    refine ⟨by rw [hq]; rfl, ?_⟩
    omega
  · have h1 : 2 ^ (num / den).log2 ≤ num / den := Nat.log2_self_le hq
    have h2 : num / den < 2 ^ ((num / den).log2 + 1) := Nat.lt_log2_self
    have h3 : num < 2 ^ ((num / den).log2 + 1) * den := (Nat.div_lt_iff_lt_mul h).1 h2
    by_cases hl : (num / den).log2 ≤ 23
    · left
      refine ⟨by omega, Nat.lt_of_lt_of_le h3 ?_⟩
      exact Nat.mul_le_mul_right _ (Nat.pow_le_pow_right (by decide) (by omega))
    · right
      have h4 : 23 + ((num / den).log2 - 23) = (num / den).log2 := by omega
      have h5 : 24 + ((num / den).log2 - 23) = (num / den).log2 + 1 := by omega
      rw [h4, h5]
      exact ⟨(Nat.le_div_iff_mul_le h).1 h1, h3⟩

open Binary32 in
/-- A magnitude below 2^(24 + e) keeps its bits down to 2^e. -/
theorem lastPlace_le {num den e : Nat} (h : 0 < den) (hlt : num < 2 ^ (24 + e) * den) : lastPlace num den ≤ e := by
  rcases lastPlace_cases (num := num) h with ⟨h1, _⟩ | ⟨h1, _⟩
  · omega
  · by_contra hne
    have h2 : (2 : Nat) ^ (24 + e) ≤ 2 ^ (23 + lastPlace num den) := Nat.pow_le_pow_right (by decide) (by omega)
    have h3 := Nat.mul_le_mul_right den h2
    omega

open Binary32 in
/-- The significand of a rounding has at most 24 bits, or has carried to 2^24, and it has 24 unless its last place is one
unit. -/
theorem significand_bounds {num den : Nat} (h : 0 < den) :
    nearestEven num (den * 2 ^ lastPlace num den) ≤ 2 ^ 24
      ∧ (lastPlace num den = 0 ∨ 2 ^ 23 ≤ nearestEven num (den * 2 ^ lastPlace num den)) := by
  have hd : 0 < den * 2 ^ lastPlace num den := Nat.mul_pos h (Nat.pow_pos (by decide))
  rcases lastPlace_cases (num := num) h with ⟨h1, h2⟩ | ⟨h1, h2⟩
  · exact ⟨nearestEven_le hd (by rw [h1, Nat.pow_zero, Nat.mul_one]; omega), .inl h1⟩
  · refine ⟨nearestEven_le hd ?_, .inr (le_nearestEven hd ?_)⟩
    · calc num ≤ 2 ^ (24 + lastPlace num den) * den := h2.le
        _ = 2 ^ 24 * (den * 2 ^ lastPlace num den) := by rw [Nat.pow_add]; ring
    · calc 2 ^ 23 * (den * 2 ^ lastPlace num den) = 2 ^ (23 + lastPlace num den) * den := by rw [Nat.pow_add]; ring
        _ ≤ num := h1

open Binary32 in
/-- A magnitude within the finite range rounds to a finite pattern: no rounding reaches an infinity (41_ramp.md R80). -/
theorem roundPattern_le {num den : Nat} (h : 0 < den) (hr : num ≤ (2 ^ 24 - 1) * 2 ^ 253 * den) :
    roundPattern num den ≤ maxPattern := by
  have hd : 0 < den * 2 ^ lastPlace num den := Nat.mul_pos h (Nat.pow_pos (by decide))
  obtain ⟨h1, h2⟩ := significand_bounds (num := num) h
  unfold roundPattern maxPattern
  by_cases he : lastPlace num den ≤ 252
  · omega
  · have h3 : lastPlace num den = 253 := by
      rcases lastPlace_cases (num := num) h with ⟨h3, _⟩ | ⟨h3, _⟩
      · omega
      · by_contra hne
        have h4 : 2 ^ 254 ≤ 2 ^ lastPlace num den := Nat.pow_le_pow_right (by decide) (by omega)
        have h5 := Nat.mul_le_mul_right den (Nat.mul_le_mul_left (2 ^ 23) h4)
        have h6 : (2 ^ 24 - 1) * 2 ^ 253 * den < 2 ^ 23 * 2 ^ 254 * den := Nat.mul_lt_mul_of_pos_right (by decide) h
        rw [Nat.pow_add] at h3
        exact absurd (h5.trans (h3.trans hr)) (Nat.not_le.2 h6)
    have h4 : nearestEven num (den * 2 ^ lastPlace num den) ≤ 2 ^ 24 - 1 :=
      nearestEven_le hd (by rw [h3]; calc num ≤ (2 ^ 24 - 1) * 2 ^ 253 * den := hr
                                      _ = (2 ^ 24 - 1) * (den * 2 ^ 253) := by ring)
    omega

open Binary32 in
/-- The magnitude of a rounding: its significand at its last place. -/
theorem round_mag {num den : Nat} (h : 0 < den) (hr : num ≤ (2 ^ 24 - 1) * 2 ^ 253 * den) (sign : Bool) :
    (Binary32.round sign num den).mag = nearestEven num (den * 2 ^ lastPlace num den) * 2 ^ lastPlace num den := by
  obtain ⟨h1, h2⟩ := significand_bounds (num := num) h
  rw [Binary32.round, ofPattern_mag (roundPattern_le h hr), roundPattern, magOf_significand h1 h2]

@[simp] theorem round_sign (sign : Bool) (num den : Nat) : (Binary32.round sign num den).sign = sign := rfl

theorem units_eq (x : Binary32) : x.units = if x.sign then -(x.mag : Int) else (x.mag : Int) := rfl

open Binary32 in
/-- A rounding is off by at most half of its last place. -/
theorem round_gap {num den : Nat} (h : 0 < den) (hr : num ≤ (2 ^ 24 - 1) * 2 ^ 253 * den) (sign : Bool) :
    2 * gap ((Binary32.round sign num den).mag * den) num ≤ den * 2 ^ lastPlace num den := by
  have hd : 0 < den * 2 ^ lastPlace num den := Nat.mul_pos h (Nat.pow_pos (by decide))
  rw [round_mag h hr, show nearestEven num (den * 2 ^ lastPlace num den) * 2 ^ lastPlace num den * den
    = nearestEven num (den * 2 ^ lastPlace num den) * (den * 2 ^ lastPlace num den) by ring]
  exact nearestEven_gap hd

open Binary32 in
/-- A magnitude of at least 2^(23 + e) is a whole number of last places. -/
theorem mag_multiple {c : Binary32} {e : Nat} (h : e = 0 ∨ 2 ^ (23 + e) ≤ c.mag) : ∃ j, c.mag = j * 2 ^ e := by
  rcases h with rfl | h
  · exact ⟨c.mag, by simp⟩
  · rcases mag_cases c with h1 | ⟨m, f, hm, h1⟩
    · have : (2 : Nat) ^ 23 < 2 ^ (23 + e) ∨ e = 0 := by
        by_cases he : e = 0
        · exact .inr he
        · exact .inl (Nat.pow_lt_pow_right (by decide) (by omega))
      by_cases he : e = 0
      · subst he; exact ⟨c.mag, by simp⟩
      · have : (2 : Nat) ^ (23 + 1) ≤ 2 ^ (23 + e) := Nat.pow_le_pow_right (by decide) (by omega)
        omega
    · have hf : e ≤ f := by
        by_contra hlt
        have h2 : m * 2 ^ f < 2 ^ 24 * 2 ^ f := Nat.mul_lt_mul_of_pos_right hm (Nat.pow_pos (by decide))
        rw [← Nat.pow_add] at h2
        have h3 : (2 : Nat) ^ (24 + f) ≤ 2 ^ (23 + e) := Nat.pow_le_pow_right (by decide) (by omega)
        omega
      refine ⟨m * 2 ^ (f - e), ?_⟩
      rw [h1, Nat.mul_assoc, ← Nat.pow_add, Nat.sub_add_cancel hf]

open Binary32 in
/-- ROUNDING TO NEAREST EVEN: no binary32 magnitude is nearer to `num / den` units than the rounding, and of two nearest
ones the rounding is the one with an even last bit (41_ramp.md R80). -/
theorem round_nearest {num den : Nat} (h : 0 < den) (hr : num ≤ (2 ^ 24 - 1) * 2 ^ 253 * den) (sign : Bool)
    (c : Binary32) :
    gap ((Binary32.round sign num den).mag * den) num ≤ gap (c.mag * den) num
      ∧ (gap ((Binary32.round sign num den).mag * den) num = gap (c.mag * den) num →
        c.mag ≠ (Binary32.round sign num den).mag → (Binary32.round sign num den).frac.getLsbD 0 = false) := by
  have hd : 0 < den * 2 ^ lastPlace num den := Nat.mul_pos h (Nat.pow_pos (by decide))
  have hfrac : (Binary32.round sign num den).frac.getLsbD 0
      = decide (nearestEven num (den * 2 ^ lastPlace num den) % 2 = 1) := by
    have h1 : min (roundPattern num den) maxPattern = roundPattern num den := Nat.min_eq_left (roundPattern_le h hr)
    simp only [Binary32.round, ofPattern, h1, BitVec.getLsbD_ofNat, Nat.testBit_zero]
    have h2 : roundPattern num den % 2 = nearestEven num (den * 2 ^ lastPlace num den) % 2 := by
      unfold roundPattern
      omega
    rw [h2]
    rfl
  rw [hfrac, round_mag h hr]
  have key (j : Nat) : j * 2 ^ lastPlace num den * den = j * (den * 2 ^ lastPlace num den) := by ring
  by_cases hc : lastPlace num den = 0 ∨ 2 ^ (23 + lastPlace num den) ≤ c.mag
  · obtain ⟨j, hj⟩ := mag_multiple hc
    rw [hj, key, key]
    refine ⟨nearestEven_nearest hd j, fun he hne => ?_⟩
    have : j ≠ nearestEven num (den * 2 ^ lastPlace num den) := fun h => hne (by rw [h])
    have := nearestEven_even hd this he
    simp [this]
  · obtain ⟨he, hlt⟩ := not_or.1 hc
    rcases lastPlace_cases (num := num) h with ⟨h1, _⟩ | ⟨h1, _⟩
    · exact absurd h1 he
    · have h2 : c.mag * den < 2 ^ (23 + lastPlace num den) * den := Nat.mul_lt_mul_of_pos_right (by omega) h
      have h3 := nearestEven_nearest (num := num) hd (2 ^ 23)
      have h4 : 2 ^ 23 * (den * 2 ^ lastPlace num den) = 2 ^ (23 + lastPlace num den) * den := by
        rw [Nat.pow_add]; ring
      rw [h4] at h3
      rw [key]
      have h5 : gap (2 ^ (23 + lastPlace num den) * den) num < gap (c.mag * den) num := by
        unfold gap; omega
      exact ⟨by omega, fun he _ => by omega⟩

/-! The operations of a ramp -/

theorem fromInt_mag {i : Int} (h : i.natAbs < 2 ^ 24) : (Binary32.fromInt i).mag = i.natAbs * 2 ^ 149 := by
  have hr : i.natAbs * 2 ^ 149 ≤ (2 ^ 24 - 1) * 2 ^ 253 * 1 := by
    calc i.natAbs * 2 ^ 149 ≤ (2 ^ 24 - 1) * 2 ^ 253 := Nat.mul_le_mul (by omega) (by decide)
      _ = _ := (Nat.mul_one _).symm
  rw [Binary32.fromInt, round_mag Nat.one_pos hr, Nat.one_mul]
  have he : Binary32.lastPlace (i.natAbs * 2 ^ 149) 1 ≤ 149 := by
    rcases lastPlace_cases (num := i.natAbs * 2 ^ 149) Nat.one_pos with ⟨h1, _⟩ | ⟨h1, _⟩
    · omega
    · by_contra hlt
      have h2 : (2 : Nat) ^ 150 ≤ 2 ^ Binary32.lastPlace (i.natAbs * 2 ^ 149) 1 :=
        Nat.pow_le_pow_right (by decide) (by omega)
      rw [Nat.pow_add, Nat.mul_one] at h1
      have h3 := Nat.mul_le_mul_left (2 ^ 23) h2
      have h4 : i.natAbs * 2 ^ 149 ≤ (2 ^ 24 - 1) * 2 ^ 149 := Nat.mul_le_mul_right _ (by omega)
      have h5 : (2 ^ 24 - 1) * 2 ^ 149 < 2 ^ 23 * 2 ^ 150 := by decide
      omega
  generalize Binary32.lastPlace (i.natAbs * 2 ^ 149) 1 = e at he ⊢
  have h1 : i.natAbs * 2 ^ 149 = i.natAbs * 2 ^ (149 - e) * 2 ^ e := by
    rw [Nat.mul_assoc, ← Nat.pow_add, Nat.sub_add_cancel he]
  rw [h1, nearestEven_mul _ (Nat.pow_pos (by decide))]

@[simp] theorem fromInt_sign (i : Int) : (Binary32.fromInt i).sign = decide (i < 0) := rfl

/-- An integer below 2^24 is converted exactly (41_ramp.md R80). -/
theorem fromInt_units {i : Int} (h : i.natAbs < 2 ^ 24) : (Binary32.fromInt i).units = i * 2 ^ 149 := by
  rw [units_eq, fromInt_mag h, fromInt_sign, Nat.cast_mul, Nat.cast_pow, Nat.cast_ofNat]
  simp only [decide_eq_true_eq]
  split
  · rw [show (i.natAbs : Int) = -i by omega]
    ring
  · rw [show (i.natAbs : Int) = i by omega]

/-- A quotient of two integers as one rounding (41_ramp.md R80, R82). -/
theorem div_fromInt {d : Int} {n : Nat} (hd : d.natAbs < 2 ^ 24) (hn : n < 2 ^ 24) :
    Binary32.div (Binary32.fromInt d) (Binary32.fromInt n)
      = Binary32.round (decide (d < 0)) (d.natAbs * 2 ^ 149 * 2 ^ 149) (n * 2 ^ 149) := by
  have h : ((n : Int)).natAbs = n := rfl
  have h' : decide ((n : Int) < 0) = false := by simp
  rw [Binary32.div, fromInt_mag hd, fromInt_mag (i := (n : Int)) (by rw [h]; exact hn), h, fromInt_sign, fromInt_sign, h']
  cases decide (d < 0) <;> rfl

/-- A difference rounds to a value at most half of a last place away from it (41_ramp.md R80). -/
theorem sub_units_gap {a b : Binary32} (hr : (a.units - b.units).natAbs ≤ (2 ^ 24 - 1) * 2 ^ 253) :
    2 * ((Binary32.sub a b).units - (a.units - b.units)).natAbs
      ≤ 2 ^ Binary32.lastPlace (a.units - b.units).natAbs 1 := by
  have h := round_gap (num := (a.units - b.units).natAbs) Nat.one_pos (by omega)
    (if a.units - b.units = 0 then a.sign && !b.sign else decide (a.units - b.units < 0))
  rw [Nat.mul_one, Nat.one_mul] at h
  have h0 : a.units - b.units = 0 → (Binary32.sub a b).mag = 0 := by
    intro h0
    rw [Binary32.sub, h0, round_mag Nat.one_pos (by decide)]
    rfl
  rw [units_eq]
  refine Nat.le_trans (Nat.mul_le_mul_left 2 ?_) h
  unfold gap
  by_cases hz : a.units - b.units = 0
  · have := h0 hz
    split <;> omega
  · simp only [Binary32.sub, round_sign, if_neg hz, decide_eq_true_eq]
    split <;> omega

end Sys2Proof.Machine
end

