-- ==== Sys2Proof/Laws/Operands.lean ====
section
/-! SUPPORT. Bit fields read as numbers and bit by bit: the halves of a word, the command format, STATUS and CTRL. -/

namespace Sys2Proof.Machine

open Sys2Proof

theorem concat_toNat (a b : Half) : (concat a b).toNat = a.toNat * 2 ^ 16 + b.toNat := by
  have h : (concat a b).toNat = a.toNat <<< 16 ||| b.toNat := BitVec.toNat_append a b
  rw [h, ← Nat.shiftLeft_add_eq_or_of_lt b.isLt, Nat.shiftLeft_eq]

@[simp] theorem zext32_toNat (v : Half) : (zext32 v).toNat = v.toNat := by
  have := v.isLt
  simp only [zext32, BitVec.truncate_eq_setWidth, BitVec.toNat_setWidth]
  omega

@[simp] theorem half_toNat (n : Nat) : (half n).toNat = n % 2 ^ 16 := BitVec.toNat_ofNat n 16

theorem half_toNat_of_lt {n : Nat} (h : n < 2 ^ 16) : (half n).toNat = n := by
  rw [half_toNat, Nat.mod_eq_of_lt h]

@[simp] theorem half_of_toNat (q : Half) : half q.toNat = q := BitVec.ofNat_toNat _ _ |>.trans (BitVec.setWidth_eq q)

/-- The pair a host reads off a packed OUT word (00_scope.md R18, 30_encoding.md R67). -/
@[simp] theorem unpack_pack (p : Pair) : unpack (pack p) = p := by
  obtain ⟨a, b⟩ := p
  have ha := a.isLt
  have hb := b.isLt
  simp only [unpack, pack, Pair.mk.injEq]
  constructor
  · apply BitVec.eq_of_toNat_eq
    rw [BitVec.extractLsb'_toNat, concat_toNat, Nat.shiftRight_zero]
    omega
  · apply BitVec.eq_of_toNat_eq
    rw [BitVec.extractLsb'_toNat, concat_toNat, Nat.shiftRight_eq_div_pow]
    omega

@[simp] theorem unpack_zero : unpack 0 = ⟨0, 0⟩ := rfl

/-- A sample lies in [-32768, 32767] (30_encoding.md R62). -/
theorem s16_range (v : Half) : -32768 ≤ s16 v ∧ s16 v ≤ 32767 := by
  have h1 := BitVec.le_toInt v
  have h2 := BitVec.toInt_lt (x := v)
  simp only [s16]
  omega

/-- The word of format C, read as a number (30_encoding.md R61). -/
theorem formatC_toNat (op : BitVec 4) (imm : Half) : (formatC op imm).toNat = op.toNat * 2 ^ 16 + imm.toNat := by
  have h : (formatC op imm).toNat = ((0 : BitVec 12) ++ op).toNat <<< 16 ||| imm.toNat :=
    BitVec.toNat_append ((0 : BitVec 12) ++ op) imm
  have h' : ((0 : BitVec 12) ++ op).toNat = op.toNat := by
    rw [BitVec.toNat_append]; simp
  rw [h, h', ← Nat.shiftLeft_add_eq_or_of_lt imm.isLt, Nat.shiftLeft_eq]

theorem fieldRsv_toNat (v : Word) : (fieldRsv v).toNat = v.toNat / 2 ^ 20 := by
  have := v.isLt
  rw [fieldRsv, BitVec.extractLsb'_toNat, Nat.shiftRight_eq_div_pow]
  omega

theorem fieldOp_toNat (v : Word) : (fieldOp v).toNat = v.toNat / 2 ^ 16 % 16 := by
  rw [fieldOp, BitVec.extractLsb'_toNat, Nat.shiftRight_eq_div_pow]

theorem fieldImm_toNat (v : Word) : (fieldImm v).toNat = v.toNat % 2 ^ 16 := by
  rw [fieldImm, BitVec.extractLsb'_toNat, Nat.shiftRight_zero]

/-- A word is its three fields (30_encoding.md R61). -/
theorem toNat_eq_fields (v : Word) :
    v.toNat = (fieldRsv v).toNat * 2 ^ 20 + (fieldOp v).toNat * 2 ^ 16 + (fieldImm v).toNat := by
  rw [fieldRsv_toNat, fieldOp_toNat, fieldImm_toNat]
  omega

theorem fieldRsv_formatC (op : BitVec 4) (imm : Half) : fieldRsv (formatC op imm) = 0 := by
  have := op.isLt
  have := imm.isLt
  apply BitVec.eq_of_toNat_eq
  rw [fieldRsv_toNat, formatC_toNat]
  simp only [BitVec.ofNat_eq_ofNat, BitVec.toNat_ofNat, Nat.zero_mod]
  omega

theorem fieldOp_formatC (op : BitVec 4) (imm : Half) : fieldOp (formatC op imm) = op := by
  have := op.isLt
  have := imm.isLt
  apply BitVec.eq_of_toNat_eq
  rw [fieldOp_toNat, formatC_toNat]
  omega

theorem fieldImm_formatC (op : BitVec 4) (imm : Half) : fieldImm (formatC op imm) = imm := by
  have := imm.isLt
  apply BitVec.eq_of_toNat_eq
  rw [fieldImm_toNat, formatC_toNat]
  omega

/-- A word with RSV = 0 is the format-C word of its OP and IMM (30_encoding.md R61). -/
theorem eq_formatC_of_rsv {v : Word} (h : fieldRsv v = 0) : v = formatC (fieldOp v) (fieldImm v) := by
  apply BitVec.eq_of_toNat_eq
  rw [formatC_toNat, toNat_eq_fields v, h]
  simp

end Sys2Proof.Machine
end

