-- ==== Sys2Proof/Laws/State.lean ====
section
/-! SUPPORT. One lemma per field per update of the state. -/

namespace Sys2Proof.Machine

open Sys2Proof

@[simp] theorem push_mode (p : Pair) (s : State) : (push p s).mode = s.mode := rfl
@[simp] theorem push_err (p : Pair) (s : State) : (push p s).err = s.err := rfl
@[simp] theorem push_cause (p : Pair) (s : State) : (push p s).cause = s.cause := rfl
@[simp] theorem push_outq (p : Pair) (s : State) : (push p s).outq = s.outq ++ [p] := rfl
@[simp] theorem push_engine (p : Pair) (s : State) : (push p s).engine = s.engine := rfl
@[simp] theorem push_lastq (p : Pair) (s : State) : (push p s).lastq = s.lastq := rfl
@[simp] theorem push_lastqV (p : Pair) (s : State) : (push p s).lastqV = s.lastqV := rfl
@[simp] theorem push_cfg (p : Pair) (s : State) : (push p s).cfg = s.cfg := rfl
@[simp] theorem push_turns (p : Pair) (s : State) : (push p s).turns = s.turns := rfl
@[simp] theorem push_program (p : Pair) (s : State) : (push p s).program = s.program := rfl
@[simp] theorem push_reads (p : Pair) (s : State) : (push p s).reads = s.reads := rfl
@[simp] theorem push_pairsRead (p : Pair) (s : State) : (push p s).pairsRead = s.pairsRead := rfl

@[simp] theorem pop_mode (s : State) : (pop s).mode = s.mode := rfl
@[simp] theorem pop_err (s : State) : (pop s).err = s.err := rfl
@[simp] theorem pop_cause (s : State) : (pop s).cause = s.cause := rfl
@[simp] theorem pop_outq (s : State) : (pop s).outq = s.outq.tail := rfl
@[simp] theorem pop_engine (s : State) : (pop s).engine = s.engine := rfl
@[simp] theorem pop_lastq (s : State) : (pop s).lastq = s.lastq := rfl
@[simp] theorem pop_lastqV (s : State) : (pop s).lastqV = s.lastqV := rfl
@[simp] theorem pop_cfg (s : State) : (pop s).cfg = s.cfg := rfl
@[simp] theorem pop_turns (s : State) : (pop s).turns = s.turns := rfl
@[simp] theorem pop_program (s : State) : (pop s).program = s.program := rfl
@[simp] theorem pop_reads (s : State) : (pop s).reads = s.reads := rfl
@[simp] theorem pop_pairsRead (s : State) : (pop s).pairsRead = s.pairsRead := rfl

@[simp] theorem resetBlock_mode (s : State) : (resetBlock s).mode = .dualPhase := rfl
@[simp] theorem resetBlock_err (s : State) : (resetBlock s).err = false := rfl
@[simp] theorem resetBlock_cause (s : State) : (resetBlock s).cause = .none := rfl
@[simp] theorem resetBlock_outq (s : State) : (resetBlock s).outq = [] := rfl
@[simp] theorem resetBlock_engine (s : State) : (resetBlock s).engine = .idle := rfl
@[simp] theorem resetBlock_lastq (s : State) : (resetBlock s).lastq = 0 := rfl
@[simp] theorem resetBlock_lastqV (s : State) : (resetBlock s).lastqV = false := rfl
@[simp] theorem resetBlock_cfg (s : State) : (resetBlock s).cfg = s.cfg := rfl
@[simp] theorem resetBlock_turns (s : State) : (resetBlock s).turns = s.turns := rfl
@[simp] theorem resetBlock_program (s : State) : (resetBlock s).program = s.program := rfl
@[simp] theorem resetBlock_reads (s : State) : (resetBlock s).reads = s.reads := rfl
@[simp] theorem resetBlock_pairsRead (s : State) : (resetBlock s).pairsRead = s.pairsRead := rfl

@[simp] theorem acceptQuant_mode (x : Int) (s : State) : (acceptQuant x s).mode = s.mode := rfl
@[simp] theorem acceptQuant_err (x : Int) (s : State) : (acceptQuant x s).err = s.err := rfl
@[simp] theorem acceptQuant_cause (x : Int) (s : State) : (acceptQuant x s).cause = s.cause := rfl
@[simp] theorem acceptQuant_outq (x : Int) (s : State) : (acceptQuant x s).outq = s.outq := rfl
@[simp] theorem acceptQuant_engine (x : Int) (s : State) : (acceptQuant x s).engine = .emit1 (payloadPair s.cfg s.mode (quantize s.cfg x)) := rfl
@[simp] theorem acceptQuant_lastq (x : Int) (s : State) : (acceptQuant x s).lastq = quantize s.cfg x := rfl
@[simp] theorem acceptQuant_lastqV (x : Int) (s : State) : (acceptQuant x s).lastqV = true := rfl
@[simp] theorem acceptQuant_cfg (x : Int) (s : State) : (acceptQuant x s).cfg = s.cfg := rfl
@[simp] theorem acceptQuant_turns (x : Int) (s : State) : (acceptQuant x s).turns = s.turns := rfl
@[simp] theorem acceptQuant_program (x : Int) (s : State) : (acceptQuant x s).program = s.program := rfl
@[simp] theorem acceptQuant_reads (x : Int) (s : State) : (acceptQuant x s).reads = s.reads := rfl
@[simp] theorem acceptQuant_pairsRead (x : Int) (s : State) : (acceptQuant x s).pairsRead = s.pairsRead := rfl

@[simp] theorem startRamp_mode (kind : RampKind) (a b : Int) (s : State) : (startRamp kind a b s).mode = s.mode := rfl
@[simp] theorem startRamp_err (kind : RampKind) (a b : Int) (s : State) : (startRamp kind a b s).err = s.err := rfl
@[simp] theorem startRamp_cause (kind : RampKind) (a b : Int) (s : State) : (startRamp kind a b s).cause = s.cause := rfl
@[simp] theorem startRamp_outq (kind : RampKind) (a b : Int) (s : State) : (startRamp kind a b s).outq = s.outq := rfl
@[simp] theorem startRamp_engine (kind : RampKind) (a b : Int) (s : State) : (startRamp kind a b s).engine = .ramp kind 0 (rampInit s.cfg a b) := rfl
@[simp] theorem startRamp_lastq (kind : RampKind) (a b : Int) (s : State) : (startRamp kind a b s).lastq = s.lastq := rfl
@[simp] theorem startRamp_lastqV (kind : RampKind) (a b : Int) (s : State) : (startRamp kind a b s).lastqV = s.lastqV := rfl
@[simp] theorem startRamp_cfg (kind : RampKind) (a b : Int) (s : State) : (startRamp kind a b s).cfg = s.cfg := rfl
@[simp] theorem startRamp_turns (kind : RampKind) (a b : Int) (s : State) : (startRamp kind a b s).turns = s.turns := rfl
@[simp] theorem startRamp_program (kind : RampKind) (a b : Int) (s : State) : (startRamp kind a b s).program = s.program := rfl
@[simp] theorem startRamp_reads (kind : RampKind) (a b : Int) (s : State) : (startRamp kind a b s).reads = s.reads := rfl
@[simp] theorem startRamp_pairsRead (kind : RampKind) (a b : Int) (s : State) : (startRamp kind a b s).pairsRead = s.pairsRead := rfl

@[simp] theorem emitStep_mode (p : Pair) (s : State) : (emitStep p s).mode = s.mode := rfl
@[simp] theorem emitStep_err (p : Pair) (s : State) : (emitStep p s).err = s.err := rfl
@[simp] theorem emitStep_cause (p : Pair) (s : State) : (emitStep p s).cause = s.cause := rfl
@[simp] theorem emitStep_outq (p : Pair) (s : State) : (emitStep p s).outq = s.outq ++ [p] := rfl
@[simp] theorem emitStep_engine (p : Pair) (s : State) : (emitStep p s).engine = .idle := rfl
@[simp] theorem emitStep_lastq (p : Pair) (s : State) : (emitStep p s).lastq = s.lastq := rfl
@[simp] theorem emitStep_lastqV (p : Pair) (s : State) : (emitStep p s).lastqV = s.lastqV := rfl
@[simp] theorem emitStep_cfg (p : Pair) (s : State) : (emitStep p s).cfg = s.cfg := rfl
@[simp] theorem emitStep_turns (p : Pair) (s : State) : (emitStep p s).turns = s.turns := rfl
@[simp] theorem emitStep_program (p : Pair) (s : State) : (emitStep p s).program = s.program := rfl
@[simp] theorem emitStep_reads (p : Pair) (s : State) : (emitStep p s).reads = s.reads := rfl
@[simp] theorem emitStep_pairsRead (p : Pair) (s : State) : (emitStep p s).pairsRead = s.pairsRead := rfl

@[simp] theorem takeTurn_mode (s : State) : (takeTurn s).mode = s.mode := rfl
@[simp] theorem takeTurn_err (s : State) : (takeTurn s).err = s.err := rfl
@[simp] theorem takeTurn_cause (s : State) : (takeTurn s).cause = s.cause := rfl
@[simp] theorem takeTurn_outq (s : State) : (takeTurn s).outq = s.outq := rfl
@[simp] theorem takeTurn_engine (s : State) : (takeTurn s).engine = s.engine := rfl
@[simp] theorem takeTurn_lastq (s : State) : (takeTurn s).lastq = s.lastq := rfl
@[simp] theorem takeTurn_lastqV (s : State) : (takeTurn s).lastqV = s.lastqV := rfl
@[simp] theorem takeTurn_cfg (s : State) : (takeTurn s).cfg = s.cfg := rfl
@[simp] theorem takeTurn_turns (s : State) : (takeTurn s).turns = s.turns.tail := rfl
@[simp] theorem takeTurn_program (s : State) : (takeTurn s).program = s.program := rfl
@[simp] theorem takeTurn_reads (s : State) : (takeTurn s).reads = s.reads := rfl
@[simp] theorem takeTurn_pairsRead (s : State) : (takeTurn s).pairsRead = s.pairsRead := rfl

@[simp] theorem again_mode (op : HostOp) (s : State) : (again op s).mode = s.mode := rfl
@[simp] theorem again_err (op : HostOp) (s : State) : (again op s).err = s.err := rfl
@[simp] theorem again_cause (op : HostOp) (s : State) : (again op s).cause = s.cause := rfl
@[simp] theorem again_outq (op : HostOp) (s : State) : (again op s).outq = s.outq := rfl
@[simp] theorem again_engine (op : HostOp) (s : State) : (again op s).engine = s.engine := rfl
@[simp] theorem again_lastq (op : HostOp) (s : State) : (again op s).lastq = s.lastq := rfl
@[simp] theorem again_lastqV (op : HostOp) (s : State) : (again op s).lastqV = s.lastqV := rfl
@[simp] theorem again_cfg (op : HostOp) (s : State) : (again op s).cfg = s.cfg := rfl
@[simp] theorem again_turns (op : HostOp) (s : State) : (again op s).turns = s.turns := rfl
@[simp] theorem again_program (op : HostOp) (s : State) : (again op s).program = op :: s.program := rfl
@[simp] theorem again_reads (op : HostOp) (s : State) : (again op s).reads = s.reads := rfl
@[simp] theorem again_pairsRead (op : HostOp) (s : State) : (again op s).pairsRead = s.pairsRead := rfl

@[simp] theorem withTurn_mode (u : Turn) (s : State) : (withTurn u s).mode = s.mode := rfl
@[simp] theorem withTurn_err (u : Turn) (s : State) : (withTurn u s).err = s.err := rfl
@[simp] theorem withTurn_cause (u : Turn) (s : State) : (withTurn u s).cause = s.cause := rfl
@[simp] theorem withTurn_outq (u : Turn) (s : State) : (withTurn u s).outq = s.outq := rfl
@[simp] theorem withTurn_engine (u : Turn) (s : State) : (withTurn u s).engine = s.engine := rfl
@[simp] theorem withTurn_lastq (u : Turn) (s : State) : (withTurn u s).lastq = s.lastq := rfl
@[simp] theorem withTurn_lastqV (u : Turn) (s : State) : (withTurn u s).lastqV = s.lastqV := rfl
@[simp] theorem withTurn_cfg (u : Turn) (s : State) : (withTurn u s).cfg = s.cfg := rfl
@[simp] theorem withTurn_turns (u : Turn) (s : State) : (withTurn u s).turns = u :: s.turns := rfl
@[simp] theorem withTurn_program (u : Turn) (s : State) : (withTurn u s).program = s.program := rfl
@[simp] theorem withTurn_reads (u : Turn) (s : State) : (withTurn u s).reads = s.reads := rfl
@[simp] theorem withTurn_pairsRead (u : Turn) (s : State) : (withTurn u s).pairsRead = s.pairsRead := rfl

@[simp] theorem withHostOp_mode (op : HostOp) (s : State) : (withHostOp op s).mode = s.mode := rfl
@[simp] theorem withHostOp_err (op : HostOp) (s : State) : (withHostOp op s).err = s.err := rfl
@[simp] theorem withHostOp_cause (op : HostOp) (s : State) : (withHostOp op s).cause = s.cause := rfl
@[simp] theorem withHostOp_outq (op : HostOp) (s : State) : (withHostOp op s).outq = s.outq := rfl
@[simp] theorem withHostOp_engine (op : HostOp) (s : State) : (withHostOp op s).engine = s.engine := rfl
@[simp] theorem withHostOp_lastq (op : HostOp) (s : State) : (withHostOp op s).lastq = s.lastq := rfl
@[simp] theorem withHostOp_lastqV (op : HostOp) (s : State) : (withHostOp op s).lastqV = s.lastqV := rfl
@[simp] theorem withHostOp_cfg (op : HostOp) (s : State) : (withHostOp op s).cfg = s.cfg := rfl
@[simp] theorem withHostOp_turns (op : HostOp) (s : State) : (withHostOp op s).turns = .host :: s.turns := rfl
@[simp] theorem withHostOp_program (op : HostOp) (s : State) : (withHostOp op s).program = op :: s.program := rfl
@[simp] theorem withHostOp_reads (op : HostOp) (s : State) : (withHostOp op s).reads = s.reads := rfl
@[simp] theorem withHostOp_pairsRead (op : HostOp) (s : State) : (withHostOp op s).pairsRead = s.pairsRead := rfl

/-! The error latch changes `err`, `cause` and `engine` only (60_exceptions.md R104). -/

@[simp] theorem raiseError_mode (c : Cause) (s : State) : (raiseError c s).mode = s.mode := by
  unfold raiseError; split <;> rfl
@[simp] theorem raiseError_outq (c : Cause) (s : State) : (raiseError c s).outq = s.outq := by
  unfold raiseError; split <;> rfl
@[simp] theorem raiseError_lastq (c : Cause) (s : State) : (raiseError c s).lastq = s.lastq := by
  unfold raiseError; split <;> rfl
@[simp] theorem raiseError_lastqV (c : Cause) (s : State) : (raiseError c s).lastqV = s.lastqV := by
  unfold raiseError; split <;> rfl
@[simp] theorem raiseError_cfg (c : Cause) (s : State) : (raiseError c s).cfg = s.cfg := by
  unfold raiseError; split <;> rfl
@[simp] theorem raiseError_turns (c : Cause) (s : State) : (raiseError c s).turns = s.turns := by
  unfold raiseError; split <;> rfl
@[simp] theorem raiseError_program (c : Cause) (s : State) : (raiseError c s).program = s.program := by
  unfold raiseError; split <;> rfl
@[simp] theorem raiseError_reads (c : Cause) (s : State) : (raiseError c s).reads = s.reads := by
  unfold raiseError; split <;> rfl
@[simp] theorem raiseError_pairsRead (c : Cause) (s : State) : (raiseError c s).pairsRead = s.pairsRead := by
  unfold raiseError; split <;> rfl

end Sys2Proof.Machine
end

