-- ==== Sys2Proof/Laws/Ops.lean ====
section
/-! SUPPORT. What the shared operations can do: the error latch, the checks before a command, and each command's meaning. -/

namespace Sys2Proof.Machine

open Sys2Proof

/-- A second error is not recorded (60_exceptions.md R103). -/
theorem raiseError_of_err {c : Cause} {s : State} (h : s.err = true) : raiseError c s = s := by
  simp [raiseError, h]

/-- The first error is recorded (60_exceptions.md R103). -/
theorem raiseError_of_ok {c : Cause} {s : State} (h : s.err = false) :
    raiseError c s = { s with err := true, cause := c, engine := .idle } := by
  simp [raiseError, h]

/-- After `raise Error(c)` an error is recorded. -/
@[simp] theorem raiseError_err (c : Cause) (s : State) : (raiseError c s).err = true := by
  unfold raiseError; split <;> simp [*]

theorem raiseError_cause_of_ok {c : Cause} {s : State} (h : s.err = false) : (raiseError c s).cause = c := by
  simp [raiseError_of_ok h]

theorem raiseError_engine_of_ok {c : Cause} {s : State} (h : s.err = false) : (raiseError c s).engine = .idle := by
  simp [raiseError_of_ok h]

/-- A command of a block with an illegal parameter set is refused (00_scope.md R13). -/
theorem whenReady_of_illegal {s : State} (h : ¬ s.cfg.Legal) (f) :
    whenReady s f = .refused .illegalParameters := by
  rw [whenReady, if_pos h]

/-- A command while `err = 1` is ignored (60_exceptions.md R105). -/
theorem whenReady_of_err {s : State} (hl : s.cfg.Legal) (h : s.err = true) (f) : whenReady s f = .next s := by
  rw [whenReady, if_neg (fun h' => h' hl), if_pos h]

/-- A command while the engine is busy raises CMD_BUSY (30_encoding.md R69). -/
theorem whenReady_of_busy {s : State} (hl : s.cfg.Legal) (h : s.err = false) (hb : s.engine ≠ .idle) (f) :
    whenReady s f = .next (raiseError .cmdBusy s) := by
  rw [whenReady, if_neg (fun h' => h' hl), if_neg (by simp [h]), if_pos hb]

/-- A command is accepted while `err = 0` and the engine is idle (30_encoding.md R69). -/
theorem whenReady_of_ready {s : State} (hl : s.cfg.Legal) (h : s.err = false) (hi : s.engine = .idle) (f) :
    whenReady s f = f s := by
  rw [whenReady, if_neg (fun h' => h' hl), if_neg (by simp [h]), if_neg (fun h' => h' hi)]

/-- Everything the checks before a command can do. -/
theorem whenReady_cases {s t : State} {f} (h : whenReady s f = .next t) :
    s.cfg.Legal ∧ ((s.err = true ∧ t = s)
      ∨ (s.err = false ∧ s.engine ≠ .idle ∧ t = raiseError .cmdBusy s)
      ∨ (s.err = false ∧ s.engine = .idle ∧ f s = .next t)) := by
  by_cases hl : s.cfg.Legal
  · refine ⟨hl, ?_⟩
    rcases Bool.eq_false_or_eq_true s.err with he | he
    · rw [whenReady_of_err hl he] at h
      exact .inl ⟨he, by cases h; rfl⟩
    · by_cases hi : s.engine = .idle
      · rw [whenReady_of_ready hl he hi] at h
        exact .inr (.inr ⟨he, hi, h⟩)
      · rw [whenReady_of_busy hl he hi] at h
        exact .inr (.inl ⟨he, hi, by cases h; rfl⟩)
  · rw [whenReady_of_illegal hl] at h
    cases h

/-- What accepting a command does, without the checks before it (40_quantizer.md R75, 41_ramp.md R86, R87). -/
def accepted (i : Instr) (s : State) : State :=
  match i with
  | .quant imm => acceptQuant (s16 imm) s
  | .fadein imm => acceptFadeIn (s16 imm) s
  | .fadeout => acceptFadeOut s

/-- Every command runs behind the same checks (30_encoding.md R69). -/
theorem exec_eq_whenReady (i : Instr) (s : State) : exec i s = whenReady s fun s => .next (accepted i s) := by
  cases i <;> rfl

/-- Everything a command can do. -/
theorem exec_cases {i : Instr} {s t : State} (h : exec i s = .next t) :
    s.cfg.Legal ∧ ((s.err = true ∧ t = s)
      ∨ (s.err = false ∧ s.engine ≠ .idle ∧ t = raiseError .cmdBusy s)
      ∨ (s.err = false ∧ s.engine = .idle ∧ t = accepted i s)) := by
  rw [exec_eq_whenReady] at h
  obtain ⟨hl, h⟩ := whenReady_cases h
  exact ⟨hl, by rcases h with h | h | ⟨he, hi, h⟩ <;> simp_all⟩

/-- FADEOUT with a sample starts the ramp from it (41_ramp.md R87). -/
theorem acceptFadeOut_of_sample {s : State} (h : s.lastqV = true) :
    acceptFadeOut s = startRamp .fadeOut s.lastq.toNat s.cfg.silence s := by
  simp [acceptFadeOut, h]

/-- FADEOUT without one raises NO_SAMPLE (41_ramp.md R87). -/
theorem acceptFadeOut_of_none {s : State} (h : s.lastqV = false) : acceptFadeOut s = raiseError .noSample s := by
  simp [acceptFadeOut, h]

/-- Dispatch of any word: the checks of R69, then the accepted command or ILLEGAL_CMD. -/
theorem dispatch_eq_whenReady (v : Word) (s : State) :
    dispatch v s = whenReady s fun s => .next (match decode v with
      | .ok i => accepted i s
      | .error _ => raiseError .illegalCmd s) := by
  unfold dispatch
  split <;> simp_all [exec_eq_whenReady]

/-- Everything dispatch can do. -/
theorem dispatch_cases {v : Word} {s t : State} (h : dispatch v s = .next t) :
    s.cfg.Legal ∧ ((s.err = true ∧ t = s)
      ∨ (s.err = false ∧ s.engine ≠ .idle ∧ t = raiseError .cmdBusy s)
      ∨ (s.err = false ∧ s.engine = .idle ∧ ∃ e, decode v = .error e ∧ t = raiseError .illegalCmd s)
      ∨ (s.err = false ∧ s.engine = .idle ∧ ∃ i, decode v = .ok i ∧ t = accepted i s)) := by
  rw [dispatch_eq_whenReady] at h
  obtain ⟨hl, h⟩ := whenReady_cases h
  refine ⟨hl, ?_⟩
  rcases h with h | h | ⟨he, hi, h⟩
  · exact .inl h
  · exact .inr (.inl h)
  · cases hd : decode v with
    | ok i => exact .inr (.inr (.inr ⟨he, hi, i, rfl, by simp_all⟩))
    | error e => exact .inr (.inr (.inl ⟨he, hi, e, rfl, by simp_all⟩))

/-! What no accepted command changes (60_exceptions.md R104, 40_quantizer.md R75, 41_ramp.md R86, R87) -/

@[simp] theorem accepted_mode (i : Instr) (s : State) : (accepted i s).mode = s.mode := by
  cases i <;> simp [accepted, acceptFadeIn, acceptFadeOut]
  split <;> simp

@[simp] theorem accepted_outq (i : Instr) (s : State) : (accepted i s).outq = s.outq := by
  cases i <;> simp [accepted, acceptFadeIn, acceptFadeOut]
  split <;> simp

@[simp] theorem accepted_cfg (i : Instr) (s : State) : (accepted i s).cfg = s.cfg := by
  cases i <;> simp [accepted, acceptFadeIn, acceptFadeOut]
  split <;> simp

@[simp] theorem accepted_turns (i : Instr) (s : State) : (accepted i s).turns = s.turns := by
  cases i <;> simp [accepted, acceptFadeIn, acceptFadeOut]
  split <;> simp

@[simp] theorem accepted_program (i : Instr) (s : State) : (accepted i s).program = s.program := by
  cases i <;> simp [accepted, acceptFadeIn, acceptFadeOut]
  split <;> simp

@[simp] theorem accepted_reads (i : Instr) (s : State) : (accepted i s).reads = s.reads := by
  cases i <;> simp [accepted, acceptFadeIn, acceptFadeOut]
  split <;> simp

@[simp] theorem accepted_pairsRead (i : Instr) (s : State) : (accepted i s).pairsRead = s.pairsRead := by
  cases i <;> simp [accepted, acceptFadeIn, acceptFadeOut]
  split <;> simp

/-- Only QUANT writes `lastq` and `lastq_v` (10_state.md R26). -/
theorem accepted_lastq {i : Instr} (h : ∀ imm, i ≠ .quant imm) (s : State) :
    (accepted i s).lastq = s.lastq ∧ (accepted i s).lastqV = s.lastqV := by
  cases i <;> simp [accepted, acceptFadeIn, acceptFadeOut]
  · exact absurd rfl (h _)
  · split <;> simp

end Sys2Proof.Machine
end

