-- ==== Sys2Proof/Laws/Bus.lean ====
section
/-! SUPPORT. What a host access can do: which accesses have a meaning, and the transitions of the host's operations. -/

namespace Sys2Proof.Machine

open Sys2Proof

/-- The register an access reaches, and only a well-formed access reaches one (20_memory.md R40, R42). -/
theorem accessReg_eq_ok {a : Access} {r : Reg} :
    accessReg a = .ok r ↔ a.width = .w32 ∧ a.off = (r.offset : Int) := by
  obtain ⟨off, width, op⟩ := a
  constructor
  · intro h
    unfold accessReg at h
    simp only at h
    split at h
    · cases h
    · rename_i hw
      split at h
      · cases h
      · split at h
        · cases h
        · split at h
          · rename_i r' hr
            cases h
            refine ⟨by simpa using hw, ?_⟩
            unfold regAtIndex at hr
            split at hr <;> cases hr <;> simp only [Reg.offset] <;> omega
          · cases h
  · rintro ⟨rfl, h⟩
    simp only at h
    subst h
    cases r <;> simp [accessReg, Reg.offset, regAtIndex]

/-- Every multiple of 4 inside the window is the offset of a register (20_memory.md R40). -/
theorem exists_reg_of_offset {off : Int} (h0 : 0 ≤ off) (h1 : off < 32) (h2 : off % 4 = 0) :
    ∃ r : Reg, off = (r.offset : Int) := by
  have : off = 0 ∨ off = 4 ∨ off = 8 ∨ off = 12 ∨ off = 16 ∨ off = 20 ∨ off = 24 ∨ off = 28 := by omega
  rcases this with h | h | h | h | h | h | h | h
  · exact ⟨.ctrl, h⟩
  · exact ⟨.status, h⟩
  · exact ⟨.cmd, h⟩
  · exact ⟨.out, h⟩
  · exact ⟨.period, h⟩
  · exact ⟨.fade, h⟩
  · exact ⟨.lastq, h⟩
  · exact ⟨.reserved, h⟩

/-- A host access is refused exactly when it is ill formed (20_memory.md R42). -/
theorem accessReg_refuses_iff (a : Access) : (∃ e, accessReg a = .error e) ↔ a.wf = false := by
  obtain ⟨off, width, op⟩ := a
  cases h : accessReg ⟨off, width, op⟩ with
  | ok r =>
    rw [accessReg_eq_ok] at h
    obtain ⟨rfl, h⟩ := h
    simp only at h
    subst h
    cases r <;> simp [Access.wf, Reg.offset]
  | error e =>
    simp only [Except.error.injEq, exists_eq', true_iff]
    rw [← Bool.not_eq_true, Access.wf, decide_eq_true_eq]
    simp only
    rintro ⟨rfl, h0, h1, h2⟩
    obtain ⟨r, hr⟩ := exists_reg_of_offset h0 h1 h2
    rw [accessReg_eq_ok.2 ⟨rfl, hr⟩] at h
    cases h

theorem accessReg_of_offset (r : Reg) (op : AccessOp) : accessReg ⟨r.offset, .w32, op⟩ = .ok r :=
  accessReg_eq_ok.2 ⟨rfl, rfl⟩

/-- The access of `wr` and `rd` reaches its register (30_encoding.md R67). -/
@[simp] theorem hostOp_wr (r : Reg) (v : Word) (s : State) : hostOp (HostOp.wr r v) s = writeReg r v s := by
  simp [HostOp.wr, hostOp, hostAccess, accessReg_of_offset, regAccess]

@[simp] theorem hostOp_rd (r : Reg) (s : State) :
    hostOp (HostOp.rd r) s = .next
      { afterRead r s with
        reads := s.reads ++ [{ reg := r, value := regValue r s }]
        pairsRead := pairsAfterRead r s } := by
  simp [HostOp.rd, hostOp, hostAccess, accessReg_of_offset, regAccess]

/-- A read of any register but OUT gives the host no pair and leaves the block (20_memory.md R59). -/
theorem pairsAfterRead_of_ne_out {r : Reg} (h : r ≠ .out) (s : State) : pairsAfterRead r s = s.pairsRead := by
  cases r <;> first | rfl | exact absurd rfl h

theorem afterRead_of_ne_out {r : Reg} (h : r ≠ .out) (s : State) : afterRead r s = s := by
  cases r <;> first | rfl | exact absurd rfl h

/-- A read of an empty OUT gives the host no pair (20_memory.md R47). -/
theorem pairsAfterRead_out_nil {s : State} (h : s.outq = []) : pairsAfterRead .out s = s.pairsRead := by
  rw [pairsAfterRead, h, List.take_nil, List.append_nil]

/-- A read of OUT gives the host the head pair (20_memory.md R47). -/
theorem pairsAfterRead_out_cons {s : State} {p : Pair} {q : List Pair} (h : s.outq = p :: q) :
    pairsAfterRead .out s = s.pairsRead ++ [p] := by
  rw [pairsAfterRead, h, List.take_succ_cons, List.take_zero]

/-- A well-formed access is one of a register (20_memory.md R40). -/
theorem hostAccess_of_reg {a : Access} {r : Reg} (h : accessReg a = .ok r) (s : State) :
    hostAccess a s = regAccess r a.op s := by
  simp [hostAccess, h]

/-- At BASE plus its offset stands the register (20_memory.md R40). -/
theorem hostOp_busAccess_reg (r : Reg) (op : AccessOp) (s : State) :
    hostOp (.busAccess (s.cfg.base + r.offset) .w32 op) s = regAccess r op s := by
  have h : accessReg (accessAt s.cfg (s.cfg.base + r.offset) .w32 op) = .ok r := by
    rw [accessReg_eq_ok]
    exact ⟨rfl, by simp only [accessAt]; omega⟩
  exact hostAccess_of_reg h s

/-- The access an operation of a host program makes, if it is a plain one. -/
def HostOp.access? (p : Params) : HostOp → Option Access
  | .access a => some a
  | .busAccess addr width op => some (accessAt p addr width op)
  | .waitIdle | .drain | .drainTake => none

theorem hostOp_of_access {op : HostOp} {s : State} {a : Access} (h : op.access? s.cfg = some a) :
    hostOp op s = hostAccess a s := by
  cases op <;> simp_all [HostOp.access?, hostOp]

/-- Two states with the same block: the tuple of 10_state.md R20 and the parameter set. -/
structure SameBlock (s t : State) : Prop where
  mode   : t.mode = s.mode
  err    : t.err = s.err
  cause  : t.cause = s.cause
  outq   : t.outq = s.outq
  engine : t.engine = s.engine
  lastq  : t.lastq = s.lastq
  lastqV : t.lastqV = s.lastqV
  cfg    : t.cfg = s.cfg

theorem SameBlock.refl (s : State) : SameBlock s s := ⟨rfl, rfl, rfl, rfl, rfl, rfl, rfl, rfl⟩

/-- A write that the operation makes to a register, at its offset or at its bus address. -/
def WritesReg (p : Params) (op : HostOp) (r : Reg) (v : Word) : Prop :=
  op = HostOp.wr r v ∨ op = .busAccess (p.base + r.offset) .w32 (.write v)

theorem writesReg_of_access {op : HostOp} {p : Params} {a : Access} {r : Reg} {v : Word}
    (h : op.access? p = some a) (hr : accessReg a = .ok r) (hw : a.op = .write v) : WritesReg p op r v := by
  rw [accessReg_eq_ok] at hr
  obtain ⟨h1, h2⟩ := hr
  cases op with
  | access b =>
    left
    obtain ⟨off, width, aop⟩ := b
    simp only [HostOp.access?, Option.some.injEq] at h
    subst h
    simp_all [HostOp.wr]
  | busAccess addr width bop =>
    right
    simp only [HostOp.access?, Option.some.injEq] at h
    subst h
    simp only [accessAt] at h1 h2 hw
    subst h1 hw
    have : addr = p.base + r.offset := by omega
    rw [this]
  | waitIdle => simp [HostOp.access?] at h
  | drain => simp [HostOp.access?] at h
  | drainTake => simp [HostOp.access?] at h

/-- What one host operation can do to the block: nothing, a pop whose pair the host gets, a CTRL write, or a command
dispatch. -/
def HostEffect (op : HostOp) (s t : State) : Prop :=
  SameBlock s t
    ∨ (SameBlock (pop s) t ∧ ((t.reads = s.reads ++ [⟨.out, regValue .out s⟩] ∧ t.pairsRead = pairsAfterRead .out s)
        ∨ (t.pairsRead = s.pairsRead ++ [unpack (regValue .out s)] ∧ t.reads = s.reads)))
    ∨ (∃ v, WritesReg s.cfg op .ctrl v ∧ t = writeCtrl v s)
    ∨ (∃ v, WritesReg s.cfg op .cmd v ∧ dispatch v s = .next t)

theorem hostAccess_cases {op : HostOp} {a : Access} {s t : State} (ha : op.access? s.cfg = some a)
    (h : hostAccess a s = .next t) : HostEffect op s t := by
  unfold hostAccess at h
  split at h
  · rename_i r hr
    unfold regAccess at h
    split at h
    · simp only [Host.Outcome.next.injEq] at h
      subst h
      cases r with
      | out => exact .inr (.inl ⟨by constructor <;> rfl, .inl ⟨rfl, rfl⟩⟩)
      | _ => exact .inl (by constructor <;> rfl)
    · rename_i v hv
      have hw := writesReg_of_access ha hr hv
      cases r with
      | ctrl =>
        simp only [writeReg, Host.Outcome.next.injEq] at h
        exact .inr (.inr (.inl ⟨v, hw, h.symm⟩))
      | cmd => exact .inr (.inr (.inr ⟨v, hw, h⟩))
      | _ =>
        simp only [writeReg, Host.Outcome.next.injEq] at h
        subst h
        exact .inl (by constructor <;> rfl)
  · cases h

/-- Everything one host operation can do to the block. -/
theorem hostOp_cases {op : HostOp} {s t : State} (h : hostOp op s = .next t) : HostEffect op s t := by
  cases op with
  | access a => exact hostAccess_cases rfl h
  | busAccess addr width aop => exact hostAccess_cases rfl h
  | waitIdle =>
    simp only [hostOp, waitIdleRound, Host.Outcome.next.injEq] at h
    subst h
    split <;> exact .inl (by constructor <;> rfl)
  | drain =>
    simp only [hostOp, drainRound, Host.Outcome.next.injEq] at h
    subst h
    split
    · exact .inl (by constructor <;> rfl)
    · split <;> exact .inl (by constructor <;> rfl)
  | drainTake =>
    simp only [hostOp, Host.Outcome.next.injEq] at h
    subst h
    exact .inr (.inl ⟨by constructor <;> rfl, .inr ⟨rfl, rfl⟩⟩)

/-- Everything a CTRL write can do (20_memory.md R44). -/
theorem writeCtrl_cases (v : Word) (s : State) :
    (v.getLsbD 31 = true ∧ writeCtrl v s = resetBlock s)
      ∨ (v.getLsbD 31 = false ∧ s.err = true ∧ writeCtrl v s = s)
      ∨ (v.getLsbD 31 = false ∧ s.err = false ∧ s.engine ≠ .idle ∧ writeCtrl v s = raiseError .ctrlBusy s)
      ∨ (v.getLsbD 31 = false ∧ s.err = false ∧ s.engine = .idle
        ∧ writeCtrl v s = { s with mode := modeOfBit (v.getLsbD 0) }) := by
  unfold writeCtrl
  split
  · exact .inl ⟨‹_›, rfl⟩
  · rename_i h31
    have h31 : v.getLsbD 31 = false := by simpa using h31
    split
    · exact .inr (.inl ⟨h31, ‹_›, rfl⟩)
    · rename_i he
      have he : s.err = false := by simpa using he
      split
      · exact .inr (.inr (.inl ⟨h31, he, ‹_›, rfl⟩))
      · exact .inr (.inr (.inr ⟨h31, he, by simp_all, rfl⟩))

/-- STATUS, bit by bit (10_state.md R22). -/
theorem statusWord_getLsbD (s : State) (i : Nat) :
    (statusWord s).getLsbD i =
      if i = 0 then busy s else if i = 1 then outValid s else if i = 2 then outFull s else if i = 3 then s.err
      else if i = 4 then s.lastqV else if i < 8 then false else if i < 11 then s.cause.code.getLsbD (i - 8)
      else false := by
  have h : (statusWord s).getLsbD i =
      ((((((((0 : BitVec 21) ++ s.cause.code) ++ (0 : BitVec 3)) ++ BitVec.ofBool s.lastqV) ++ BitVec.ofBool s.err)
        ++ BitVec.ofBool (outFull s)) ++ BitVec.ofBool (outValid s)) ++ BitVec.ofBool (busy s) :
          BitVec (21 + 3 + 3 + 1 + 1 + 1 + 1 + 1)).getLsbD i := rfl
  rw [h]
  simp only [BitVec.getLsbD_append, BitVec.getLsbD_ofBool]
  rcases i with _ | _ | _ | _ | _ | i
  · simp
  · simp
  · simp
  · simp
  · simp
  · simp only [show ¬ i + 5 < 1 by omega, if_false]
    have e8 : i + 1 + 1 + 1 + 1 + 1 - 8 = i - 3 := by omega
    by_cases h : i < 3
    · simp [h, show ¬ 3 ≤ i by omega]
    · by_cases h2 : i < 6
      · simp [h, e8, show i - 3 < 3 by omega, show i + 5 < 11 by omega, show ¬ i + 5 < 8 by omega]
      · simp [h, show ¬ i - 3 < 3 by omega, show ¬ i + 5 < 11 by omega]

/-- STATUS.BUSY as the host reads it (10_state.md R34). -/
theorem status_busy (s : State) : (regValue .status s).getLsbD 0 = decide (s.engine ≠ .idle) := by
  rw [regValue, statusWord_getLsbD]
  simp [busy]

/-- STATUS.OUT_VALID as the host reads it (10_state.md R22). -/
theorem status_outValid (s : State) : (regValue .status s).getLsbD 1 = decide (s.outq ≠ []) := by
  rw [regValue, statusWord_getLsbD]
  cases h : s.outq <;> simp [outValid, h]

end Sys2Proof.Machine
end

