-- ==== Sys2Proof/Laws/PerInstr.lean ====
section
/-! SUPPORT. Per instruction: its word matches its own row of the opcode table and its operand is a sample. -/

namespace Sys2Proof.Machine

open Sys2Proof

/-- The mask of QUANT and FADEIN keeps the high half of a word (30_encoding.md R63). -/
theorem and_high_toNat (v : Word) : (v &&& 0xFFFF0000#32).toNat = v.toNat / 2 ^ 16 * 2 ^ 16 := by
  have hm (i : Nat) (h : i < 32) : (0xFFFF0000#32).getLsbD i = decide (16 ≤ i) := by
    revert i; decide
  have h : v &&& 0xFFFF0000#32 = (v >>> 16) <<< 16 := by
    apply BitVec.eq_of_getLsbD_eq
    intro i hi
    rw [BitVec.getLsbD_and, hm i hi]
    simp only [BitVec.getLsbD_shiftLeft, BitVec.getLsbD_ushiftRight, hi, decide_true]
    by_cases h : 16 ≤ i
    · simp [h, Nat.not_lt.2 h]
    · simp [h, Nat.lt_of_not_le h]
  have := v.isLt
  rw [h, BitVec.toNat_shiftLeft, BitVec.toNat_ushiftRight, Nat.shiftRight_eq_div_pow, Nat.shiftLeft_eq]
  omega

/-- The mask of FADEOUT keeps all of a word (30_encoding.md R63). -/
theorem and_all (v : Word) : v &&& 0xFFFFFFFF#32 = v := by
  have h : 0xFFFFFFFF#32 = BitVec.allOnes 32 := by decide
  rw [h, BitVec.and_allOnes]

end Sys2Proof.Machine

namespace Sys2Proof.Laws.OpcodeRow

open Sys2Proof.Machine

/-- The instruction's row stands in the table, its word matches that row, and its operand is a sample. -/
def Statement (i : Instr) : Prop := opRow i ∈ opcodeTable ∧ (opRow i).Spells (encode i) ∧ i.wf = true

theorem spells_formatC (op : BitVec 4) (imm : Half) (pattern : Word) (h : pattern.toNat = op.toNat * 2 ^ 16) :
    formatC op imm &&& 0xFFFF0000#32 = pattern := by
  have := imm.isLt
  apply BitVec.eq_of_toNat_eq
  rw [and_high_toNat, formatC_toNat, h]
  omega

theorem quant (imm : Half) : Statement (.quant imm) :=
  ⟨List.mem_cons_self, spells_formatC 1 imm _ rfl, decide_eq_true (s16_range imm)⟩

theorem fadein (imm : Half) : Statement (.fadein imm) :=
  ⟨List.mem_cons_of_mem _ List.mem_cons_self, spells_formatC 2 imm _ rfl, decide_eq_true (s16_range imm)⟩

theorem fadeout : Statement .fadeout :=
  ⟨List.mem_cons_of_mem _ (List.mem_cons_of_mem _ List.mem_cons_self), and_all _, rfl⟩

end Sys2Proof.Laws.OpcodeRow
end

