-- ==== Sys2Proof/Laws/Quantizer.lean ====
section
/-! SUPPORT. The bounds of the quantizer and of the constants (40_quantizer.md R71 to R74, 00_scope.md R13). -/

namespace Sys2Proof.Machine

open Sys2Proof

/-- Adding 32768 to a sample is flipping bit 15 of its pattern (40_quantizer.md R71). -/
theorem s16_add_eq_xor (imm : Half) : s16 imm + 32768 = ((imm ^^^ 0x8000#16).toNat : Int) := by
  have h0 := imm.isLt
  have h1 : (imm ^^^ 0x8000#16).toNat = imm.toNat ^^^ 32768 := BitVec.toNat_xor _ _
  have h2 : (imm.toNat ^^^ 32768) / 2 ^ 15 = imm.toNat / 2 ^ 15 ^^^ 1 := Nat.xor_div_two_pow
  have h3 : (imm.toNat ^^^ 32768) % 2 ^ 15 = imm.toNat % 2 ^ 15 := by
    rw [Nat.xor_mod_two_pow]; exact Nat.xor_zero _
  rw [h1, s16, BitVec.toInt_eq_toNat_cond]
  have h4 : imm.toNat / 2 ^ 15 = 0 ∨ imm.toNat / 2 ^ 15 = 1 := by omega
  rcases h4 with h4 | h4
  · rw [h4, Nat.zero_xor] at h2
    split <;> omega
  · rw [h4, Nat.xor_self] at h2
    split <;> omega

/-- The scaled sample is below PERIOD (40_quantizer.md R72). -/
theorem scaledSample_lt {p : Params} (h : p.Legal) {s : Int} (hs : s ≤ 32767) : scaledSample p s < p.period := by
  have h1 : (s + 32768).toNat ≤ 65535 := by omega
  have h2 : (s + 32768).toNat * p.period ≤ 65535 * p.period := Nat.mul_le_mul_right _ h1
  have h3 : 10 ≤ p.period := h.1
  unfold scaledSample
  omega

theorem quantize_toNat {p : Params} (h : p.Legal) {s : Int} (hs : s ≤ 32767) :
    (quantize p s).toNat = if scaledSample p s = 0 then 1 else scaledSample p s := by
  have h1 := scaledSample_lt h hs
  have h2 : p.period ≤ 65535 := h.2
  rw [quantize, half_toNat_of_lt]
  split <;> omega

/-- A legal parameter set has `N ≥ 1`, and SILENCE is in [1, PERIOD-1] (00_scope.md R8, R9, R13). -/
theorem Params.Legal.constants {p : Params} (h : p.Legal) :
    1 ≤ p.fadeSize ∧ p.fadeSize ≤ 6553 ∧ 1 ≤ p.silence ∧ p.silence ≤ p.period - 1 := by
  have h1 : 10 ≤ p.period := h.1
  have h2 : p.period ≤ 65535 := h.2
  simp only [Params.fadeSize, Params.silence]
  omega

end Sys2Proof.Machine
end

