-- ==== Sys2Proof/Laws/Ramp.lean ====
section
/-! SUPPORT. The values and the pairs of a ramp: truncation as a floor, the arithmetic of the accumulator, and the range of
both words of a pair (41_ramp.md R80 to R85). -/

namespace Sys2Proof.Machine

open Sys2Proof

/-- Truncation of a value of 0 or more is its floor (00_scope.md R15). -/
theorem truncRat_of_nonneg {x : Rat} (h : 0 ≤ x) : truncRat x = ⌊x⌋ := by
  rw [truncRat, Int.tdiv_eq_ediv_of_nonneg (Rat.num_nonneg.2 h)]
  conv_rhs => rw [← Rat.num_div_den x]
  exact (Rat.floor_intCast_div_natCast x.num x.den).symm

/-- Truncation of a binary32 value is that of its real value (41_ramp.md R80). -/
theorem trunc_eq_truncRat (x : Binary32) (h : 0 ≤ x.toRat) : x.trunc = truncRat x.toRat := by
  have hu : 0 ≤ x.units := by
    by_contra hlt
    have hneg : x.toRat < 0 := by
      rw [Binary32.toRat]
      exact div_neg_of_neg_of_pos (by exact_mod_cast (by omega : x.units < 0)) (by norm_num)
    linarith
  rw [truncRat_of_nonneg h, Binary32.trunc, Int.tdiv_eq_ediv_of_nonneg hu, Binary32.toRat]
  exact (Rat.floor_intCast_div_natCast x.units (2 ^ 149)).symm

/-- A ramp starts in the arithmetic of RAMP_ARITH and stays in it (41_ramp.md R80). -/
theorem rampInit_hasArith (p : Params) (start stop : Int) : (rampInit p start stop).HasArith p.rampArith := by
  unfold rampInit
  split <;> simp_all [RampAcc.HasArith]

theorem advance_hasArith {r : RampAcc} {a : RampArith} (h : r.HasArith a) : r.advance.HasArith a := by
  cases r <;> exact h

/-- A value in [1, PERIOD-1] makes a pair of two such words (41_ramp.md R85). -/
theorem fadePair_range {p : Params} (h : p.Legal) {v : Nat} (h1 : 1 ≤ v) (h2 : v ≤ p.period - 1) (kind : RampKind)
    (m : Mode) : PairInRange p (fadePair p kind m v) := by
  have hp : 10 ≤ p.period ∧ p.period ≤ 65535 := h
  have ha : WordInRange p (half v) := by rw [WordInRange, half_toNat_of_lt (by omega)]; omega
  have hb : WordInRange p (half (p.period - v)) := by rw [WordInRange, half_toNat_of_lt (by omega)]; omega
  cases m <;> cases kind
  · exact ⟨hb, ha⟩
  · exact ⟨ha, hb⟩
  · exact ⟨ha, ha⟩
  · exact ⟨ha, ha⟩

/-! The pairs a ramp has left to push (41_ramp.md R84) -/

@[simp] theorem rampPairs_zero (p : Params) (kind : RampKind) (m : Mode) (r : RampAcc) : rampPairs p kind m 0 r = [] := rfl

/-- A value in range is pushed, and the ramp goes on from the next accumulator. -/
theorem rampPairs_of_inRange {p : Params} {r : RampAcc} (h : ¬ RampOutOfRange p r.trunc) (kind : RampKind) (m : Mode)
    (n : Nat) :
    rampPairs p kind m (n + 1) r = fadePair p kind m r.trunc.toNat :: rampPairs p kind m n r.advance := by
  rw [rampPairs, if_neg h]

/-- A value out of range ends the ramp, with nothing pushed. -/
theorem rampPairs_of_outOfRange {p : Params} {r : RampAcc} (h : RampOutOfRange p r.trunc) (kind : RampKind) (m : Mode)
    (n : Nat) : rampPairs p kind m n r = [] := by
  cases n with
  | zero => rfl
  | succ n => rw [rampPairs, if_pos h]

/-- An idle engine has no pair left. -/
theorem pendingPairs_of_idle {s : State} (h : s.engine = .idle) : pendingPairs s = [] := by
  rw [pendingPairs, h]

theorem pairsLeft_of_idle {s : State} (h : s.engine = .idle) : pairsLeft s = 0 := by
  rw [pairsLeft, h]

end Sys2Proof.Machine
end

