-- ==== Sys2Proof/Laws/Step.lean ====
section
/-! SUPPORT. What the engine and one step can do: the one inversion lemma from which every invariant and every rule about
the whole machine follows. -/

namespace Sys2Proof.Machine

open Sys2Proof

theorem SameBlock.trans {s t u : State} (h : SameBlock s t) (h' : SameBlock t u) : SameBlock s u :=
  ⟨h'.mode.trans h.mode, h'.err.trans h.err, h'.cause.trans h.cause, h'.outq.trans h.outq, h'.engine.trans h.engine,
    h'.lastq.trans h.lastq, h'.lastqV.trans h.lastqV, h'.cfg.trans h.cfg⟩

/-- The engine's readiness is a matter of the block (10_state.md R33). -/
theorem SameBlock.engineReady {s t : State} (h : SameBlock s t) : EngineReady t ↔ EngineReady s := by
  simp only [EngineReady, h.err, h.engine, h.outq, h.cfg]

/-- Everything an engine step can do, when the engine has one (40_quantizer.md R76, 41_ramp.md R84). -/
theorem engineStep_cases {s : State} (h : EngineReady s) :
    (∃ p, s.engine = .emit1 p ∧ engineStep s = emitStep p s)
      ∨ (∃ kind k r, s.engine = .ramp kind k r ∧ RampOutOfRange s.cfg r.trunc
        ∧ engineStep s = raiseError .rampRange s)
      ∨ (∃ kind k r, s.engine = .ramp kind k r ∧ ¬ RampOutOfRange s.cfg r.trunc
        ∧ engineStep s = { push (fadePair s.cfg kind s.mode r.trunc.toNat) s with engine := rampNext s.cfg kind k r }) := by
  unfold engineStep
  split
  · exact absurd ‹_› h.2.1
  · exact .inl ⟨_, ‹_›, rfl⟩
  · rename_i kind k r he
    unfold rampStep
    split
    · exact .inr (.inl ⟨kind, k, r, he, ‹_›, rfl⟩)
    · exact .inr (.inr ⟨kind, k, r, he, ‹_›, rfl⟩)

/-! What no engine step changes (10_state.md R33) -/

@[simp] theorem engineStep_mode (s : State) : (engineStep s).mode = s.mode := by
  unfold engineStep
  split <;> simp [rampStep]
  split <;> simp

@[simp] theorem engineStep_lastq (s : State) : (engineStep s).lastq = s.lastq := by
  unfold engineStep
  split <;> simp [rampStep]
  split <;> simp

@[simp] theorem engineStep_lastqV (s : State) : (engineStep s).lastqV = s.lastqV := by
  unfold engineStep
  split <;> simp [rampStep]
  split <;> simp

@[simp] theorem engineStep_cfg (s : State) : (engineStep s).cfg = s.cfg := by
  unfold engineStep
  split <;> simp [rampStep]
  split <;> simp

@[simp] theorem engineStep_turns (s : State) : (engineStep s).turns = s.turns := by
  unfold engineStep
  split <;> simp [rampStep]
  split <;> simp

@[simp] theorem engineStep_program (s : State) : (engineStep s).program = s.program := by
  unfold engineStep
  split <;> simp [rampStep]
  split <;> simp

@[simp] theorem engineStep_reads (s : State) : (engineStep s).reads = s.reads := by
  unfold engineStep
  split <;> simp [rampStep]
  split <;> simp

@[simp] theorem engineStep_pairsRead (s : State) : (engineStep s).pairsRead = s.pairsRead := by
  unfold engineStep
  split <;> simp [rampStep]
  split <;> simp

/-- What one step can do to the block, told from the state `u` in which the turn and the host's operation are taken. -/
def StepEffect (s u t : State) : Prop :=
  SameBlock u t
    ∨ (ResetNext s ∧ t = resetBlock u)
    ∨ (nextTurn s = .engine ∧ EngineReady u ∧ t = engineStep u)
    ∨ (nextTurn s = .host ∧ SameBlock (pop u) t
      ∧ ((t.reads = u.reads ++ [⟨.out, regValue .out u⟩] ∧ t.pairsRead = pairsAfterRead .out u)
        ∨ (t.pairsRead = u.pairsRead ++ [unpack (regValue .out u)] ∧ t.reads = u.reads)))
    ∨ (∃ v, HostWrites s .ctrl v ∧ v.getLsbD 31 = false ∧ t = writeCtrl v u)
    ∨ (∃ v, HostWrites s .cmd v ∧ dispatch v u = .next t)

/-- Everything a step can do. -/
theorem step_cases {s t : State} (h : step s = .next t) :
    s.cfg.Legal ∧ ∃ u, SameBlock s u ∧ u.reads = s.reads ∧ u.pairsRead = s.pairsRead ∧ StepEffect s u t := by
  unfold step transition at h
  split at h
  · rename_i hl
    refine ⟨hl, ?_⟩
    unfold turn at h
    split at h
    · rename_i ht
      unfold hostTurn at h
      split at h
      · simp only [Host.Outcome.next.injEq] at h
        exact ⟨takeTurn s, by constructor <;> rfl, rfl, rfl, .inl (h ▸ by constructor <;> rfl)⟩
      · rename_i op rest hp
        refine ⟨{ takeTurn s with program := rest }, by constructor <;> rfl, rfl, rfl, ?_⟩
        have hw (r v) (h : WritesReg s.cfg op r v) : HostWrites s r v :=
          ⟨ht, rest, by simp only [takeTurn_program] at hp; rcases h with h | h <;> simp [hp, h]⟩
        rcases hostOp_cases h with h | ⟨h, h'⟩ | ⟨v, h, h'⟩ | ⟨v, h, h'⟩
        · exact .inl h
        · exact .inr (.inr (.inr (.inl ⟨ht, h, h'⟩)))
        · cases h31 : v.getLsbD 31 with
          | true => exact .inr (.inl ⟨.inr ⟨v, hw _ _ h, h31⟩, by rw [h', writeCtrl, if_pos h31]⟩)
          | false => exact .inr (.inr (.inr (.inr (.inl ⟨v, hw _ _ h, h31, h'⟩))))
        · exact .inr (.inr (.inr (.inr (.inr ⟨v, hw _ _ h, h'⟩))))
    · rename_i ht
      simp only [Host.Outcome.next.injEq] at h
      refine ⟨takeTurn s, by constructor <;> rfl, rfl, rfl, ?_⟩
      unfold engineTurn at h
      split at h
      · exact .inr (.inr (.inl ⟨ht, ‹_›, h.symm⟩))
      · exact .inl (h ▸ by constructor <;> rfl)
    · rename_i ht
      simp only [Host.Outcome.next.injEq] at h
      exact ⟨takeTurn s, by constructor <;> rfl, rfl, rfl, .inr (.inl ⟨.inl ht, h.symm⟩)⟩
  · cases h

/-- A step of a block with a legal parameter set is its next turn. -/
theorem step_of_legal {s : State} (h : s.cfg.Legal) : step s = turn (nextTurn s) (takeTurn s) := by
  rw [step, transition, if_pos h]

@[simp] theorem nextTurn_withTurn (t : Turn) (s : State) : nextTurn (withTurn t s) = t := rfl
@[simp] theorem takeTurn_withTurn (t : Turn) (s : State) : takeTurn (withTurn t s) = s := rfl
@[simp] theorem nextTurn_withHostOp (op : HostOp) (s : State) : nextTurn (withHostOp op s) = .host := rfl
@[simp] theorem hostTurn_withHostOp (op : HostOp) (s : State) : hostTurn (takeTurn (withHostOp op s)) = hostOp op s := rfl

/-- A run of one step more. -/
theorem run_succ {s t : State} {n : Nat} (h : step s = .next t) :
    Host.Core.run Sys2Proof.core (n + 1) s = Host.Core.run Sys2Proof.core n t := by
  have h' : Sys2Proof.core.step s = .next t := h
  simp only [Host.Core.run, h']

/-- A turn that is put next is the one taken. -/
theorem step_withTurn {s : State} (h : s.cfg.Legal) (t : Turn) : step (withTurn t s) = turn t s := by
  rw [step_of_legal (by simpa using h)]
  rfl

/-- A host operation that is put next is the one made. -/
theorem step_withHostOp {s : State} (h : s.cfg.Legal) (op : HostOp) : step (withHostOp op s) = hostOp op s := by
  rw [step_of_legal (by simpa using h)]
  rfl

/-- Where the host moves next, its operation is made in the state with the turn and the operation taken. -/
theorem step_of_hostOp {s : State} (h : s.cfg.Legal) (ht : nextTurn s = .host) {op : HostOp} {rest : List HostOp}
    (hp : s.program = op :: rest) : step s = hostOp op { s with turns := s.turns.tail, program := rest } := by
  rw [step_of_legal h, ht, turn, hostTurn, takeTurn_program, hp]
  rfl

/-- A write that the host makes next is the write of the register, in the state with the turn and the operation taken. -/
theorem step_of_hostWrites {s : State} {r : Reg} {v : Word} (h : s.cfg.Legal) (hw : HostWrites s r v) :
    ∃ u, SameBlock s u ∧ u.reads = s.reads ∧ u.pairsRead = s.pairsRead ∧ step s = writeReg r v u := by
  obtain ⟨ht, rest, hp⟩ := hw
  refine ⟨{ s with turns := s.turns.tail, program := rest }, by constructor <;> rfl, rfl, rfl, ?_⟩
  rcases hp with hp | hp
  · rw [step_of_hostOp h ht hp, hostOp_wr]
  · rw [step_of_hostOp h ht hp]
    exact hostOp_busAccess_reg r (.write v) { s with turns := s.turns.tail, program := rest }

/-- A reset event resets the block, whatever its state (70_reset_and_hazards.md R120, R121). -/
theorem step_of_resetNext {s : State} (h : s.cfg.Legal) (hr : ResetNext s) :
    ∃ u, SameBlock s u ∧ u.reads = s.reads ∧ u.pairsRead = s.pairsRead ∧ step s = .next (resetBlock u) := by
  rcases hr with ht | ⟨v, hw, hv⟩
  · exact ⟨takeTurn s, by constructor <;> rfl, rfl, rfl, by rw [step_of_legal h, ht, turn]⟩
  · obtain ⟨u, hu, h1, h2, h3⟩ := step_of_hostWrites h hw
    exact ⟨u, hu, h1, h2, by rw [h3, writeReg, writeCtrl, if_pos hv]⟩

end Sys2Proof.Machine
end

