-- ==== Sys2Proof/Tests/Slice0.lean ====
section
/-! SUPPORT. Tests. The expected values of the `test_` theorems are the words, pairs and register values of
30_encoding.md R63 to R66 and 95_test_vectors.md; the `witness_` theorems show, for each obligation with hypotheses, a
concrete state and operands that meet all of them. -/

namespace Sys2Proof.Tests

open Sys2Proof Sys2Proof.Machine

/-! States to test on -/

/-- This hardware's parameters with OUT_DEPTH = 4 and BASE = 0x40. -/
def demoParams : Params := { Config.thisHardware with extraDepth := 3, basePage := 2 }

/-- The state after reset, with those parameters. -/
def demo : State := { State.reset with cfg := demoParams }

/-- After `quant 32767` and the pair read: `lastq = 5667`. -/
def sampled : State := { demo with lastq := 5667, lastqV := true }

/-- With the pair of `quant 32767` held. -/
def emitting : State := { sampled with engine := .emit1 ⟨5667, 1⟩ }

/-- At the start of the fade-out from 5667. -/
def fading : State := startRamp .fadeOut 5667 2834 sampled

/-- With an error recorded and a pair left in the queue. -/
def failed : State := { sampled with err := true, cause := .noSample, outq := [⟨2834, 2834⟩] }

/-- Idle, with a pair in the queue, in DualChannel. -/
def holding : State := { sampled with mode := .dualChannel, outq := [⟨5667, 1⟩] }

/-- In exact arithmetic, at the start of the fade-in to 1. -/
def exactFading : State := startRamp .fadeIn 2834 1 { demo with cfg := { demoParams with rampArith := .exact } }

/-- In the Target form, at the start of the fade-out from 1. -/
def targetFading : State :=
  startRamp .fadeOut 1 2834 { demo with lastq := 1, lastqV := true, cfg := { demoParams with rampStepForm := .target } }

/-- A field of the next state of a step. -/
def after {α : Type} (s : State) (f : State → α) : Option α := (nextState? (step s)).map f

/-- The value of the last read the host made in a step. -/
def readValue (r : Reg) (s : State) : Option (Option Word) :=
  after (withHostOp (HostOp.rd r) s) fun t => t.reads.getLast?.map BusRead.value

/-- Why a step is refused. -/
def refusal? (s : State) : Option Refusal :=
  match step s with
  | .next _ => none
  | .fault _ => none
  | .refused e => some e

/-- The decoder gives this reason for a word. -/
def illegalBy (e : Illegal) (v : Word) : Bool :=
  match decode v with
  | .ok _ => false
  | .error e' => decide (e = e')

/-! Decoding: words written out bit by bit from 30_encoding.md R61, R63 -/

/-- RSV = 0, OP = 1, IMM = 1000_0000_0000_0000: the sample -32768. -/
theorem test_decode_quant_bits : decode 0b00000000000000011000000000000000 = .ok (.quant 0x8000) := rfl

/-- RSV = 0, OP = 2, IMM = 0000_0000_0110_0100: the sample 100. -/
theorem test_decode_fadein_bits : decode 0b00000000000000100000000001100100 = .ok (.fadein 100) := rfl

/-- RSV = 0, OP = 3, IMM = 0. -/
theorem test_decode_fadeout_bits : decode 0b00000000000000110000000000000000 = .ok .fadeout := rfl

/-- OP 0x0 and 0x4 to 0xF are illegal (30_encoding.md R64). -/
theorem test_decode_unassigned_op :
    ∀ op : BitVec 4, op ∉ [1, 2, 3] → illegalBy .opUnassigned (formatC op 0) = true := by decide

/-- Each of the twelve bits of RSV makes a QUANT word illegal (30_encoding.md R64). -/
theorem test_decode_rsv : ∀ i : Fin 12, illegalBy .rsvNonzero (0x00010000 ||| (1#32 <<< (20 + i.val))) = true := by decide

/-- FADEOUT with IMM ≠ 0 is illegal, at its lowest and its highest bit (30_encoding.md R64). -/
theorem test_decode_fadeout_imm :
    decode 0x00030001 = .error .immNonzero ∧ decode 0x00038000 = .error .immNonzero := ⟨rfl, rfl⟩

/-- The byte at the lowest address is bits [7:0] (20_memory.md R43). -/
theorem test_decode_bytes :
    decodeBytes [0x64, 0x00, 0x01, 0x00] = .ok (.quant 100) ∧ decodeBytes [0x64, 0x00] = .error .notOneWord := ⟨rfl, rfl⟩

theorem test_encode : encode (.quant 0xFF9C) = 0x0001FF9C ∧ encode (.fadein 0x7FFF) = 0x00027FFF
    ∧ encode .fadeout = 0x00030000 := by decide

theorem test_decode_table_word : decodeTableWord 32 0x00028000 = some (.fadein 0x8000) ∧ decodeTableWord 32 0 = none := by
  decide

/-- `quant -32768` and `quant 0x8000` both encode 0x0001_8000 (30_encoding.md R66). -/
theorem test_assemble_line :
    assembleLine ['q', 'u', 'a', 'n', 't', ' ', '-', '3', '2', '7', '6', '8'] = some 0x00018000
      ∧ assembleLine ['Q', 'u', 'a', 'n', 't', ' ', '0', 'x', '8', '0', '0', '0'] = some 0x00018000
      ∧ assembleLine ['f', 'a', 'd', 'e', 'o', 'u', 't'] = some 0x00030000 := by decide

/-! Ill-formed terms, which each check refuses -/

theorem test_wf_access_width : (Access.wf ⟨0x08, .w16, .read⟩) = false
    ∧ refusal? (withHostOp (.access ⟨0x08, .w16, .read⟩) demo) = some .accessWidth := by decide

theorem test_wf_access_misaligned : (Access.wf ⟨0x0A, .w32, .read⟩) = false
    ∧ refusal? (withHostOp (.access ⟨0x0A, .w32, .read⟩) demo) = some .accessMisaligned := by decide

theorem test_wf_access_above : (Access.wf ⟨0x20, .w32, .write 0⟩) = false
    ∧ refusal? (withHostOp (.access ⟨0x20, .w32, .write 0⟩) demo) = some .accessOutsideWindow := by decide

/-- The bus address just below BASE = 0x40. -/
theorem test_wf_access_below : (HostOp.wf demoParams (.busAccess 0x3C .w32 .read)) = false
    ∧ refusal? (withHostOp (.busAccess 0x3C .w32 .read) demo) = some .accessOutsideWindow := by decide

/-- PERIOD = 9, PERIOD = 65536, and a rate of 0 (00_scope.md R13). -/
theorem test_wf_parameters :
    ¬ Params.Legal { demoParams with clkHz := 9, rateHz := 1 } ∧ ¬ Params.Legal { demoParams with clkHz := 65536, rateHz := 1 }
      ∧ ¬ Params.Legal { demoParams with rateHz := 0 }
      ∧ refusal? { demo with cfg := { demoParams with clkHz := 9, rateHz := 1 } } = some .illegalParameters := by decide

theorem test_wf_command_word : isCommandWord 0x00030001 = false ∧ isCommandWord 0x00040000 = false
    ∧ isCommandWord 0x00110000 = false ∧ isCommandWord 0x00030000 = true := by decide

/-- Every operand of the type is a sample, so no instruction is ill-formed; what could be is not decoded. -/
theorem test_wf_instr : Instr.wf (.quant 0x8000) = true ∧ Instr.wf (.fadein 0x7FFF) = true ∧ Instr.wf .fadeout = true := by
  decide

theorem test_wf_assembler_operand :
    AsmOperand.wf (.dec 32768) = false ∧ AsmOperand.wf (.dec (-32769)) = false ∧ AsmOperand.wf (.hex 0x10000) = false
      ∧ assemble (.quant (.dec 32768)) = none := by decide

/-! QUANT (95_test_vectors.md section 2) -/

/-- `quant -100` in DualPhase holds (2825, 2843). -/
theorem test_quant_dual_phase :
    after (withCommandWrite 0x0001FF9C demo) (fun t => (t.lastq, t.lastqV, t.engine))
      = some (2825, true, .emit1 ⟨2825, 2843⟩) := by decide

/-- `quant -32757` in DualChannel is forced to 1 and holds (1, 1), whatever the queue holds. -/
theorem test_quant_forced :
    after (withCommandWrite 0x0001800B holding) (fun t => (t.lastq, t.engine, t.outq))
      = some (1, .emit1 ⟨1, 1⟩, [⟨5667, 1⟩]) := by decide

/-- The engine pushes (5667, 1), which reads as 0x0001_1623. -/
theorem test_emit :
    after (withTurn .engine emitting) (fun t => (t.outq, t.engine, regValue .out t))
      = some ([⟨5667, 1⟩], .idle, 0x00011623) := by decide

/-! FADEIN and FADEOUT (95_test_vectors.md section 3.1) -/

/-- `fadein -32768`: the accumulator 2834, the step 0x40A0_2B6C. -/
theorem test_fadein_start :
    after (withCommandWrite 0x00028000 demo) (fun t => match t.engine with
      | .ramp .fadeIn 0 (.binary32 acc d) => (acc.trunc, d.bits)
      | _ => (0, 0)) = some (2834, 0x40A02B6C) := by decide

/-- `fadein 32767`: an ascending ramp, the step 0xC0A0_2B6C. -/
theorem test_fadein_ascending :
    after (withCommandWrite 0x00027FFF demo) (fun t => match t.engine with
      | .ramp .fadeIn 0 (.binary32 acc d) => (acc.trunc, d.bits)
      | _ => (0, 0)) = some (2834, 0xC0A02B6C) := by decide

/-- `fadeout` from `lastq = 2842`: the step 0x3C67_9373. -/
theorem test_fadeout_start :
    after (withCommandWrite 0x00030000 { sampled with lastq := 2842 }) (fun t => match t.engine with
      | .ramp .fadeOut 0 (.binary32 acc d) => (acc.trunc, d.bits)
      | _ => (0, 0)) = some (2842, 0x3C679373) := by decide

/-- FADEOUT with no sample raises NO_SAMPLE, and STATUS reads 0x0000_0308 (program P4). -/
theorem test_fadeout_no_sample :
    after (withCommandWrite 0x00030000 demo) (regValue .status) = some 0x00000308 := by decide

/-- The first pair of the fade-out from 5667 is (5667, 1), and the next value is 5661. -/
theorem test_ramp_step :
    after (withTurn .engine fading) (fun t => (t.outq, match t.engine with
      | .ramp .fadeOut 1 r => r.trunc
      | _ => 0)) = some ([⟨5667, 1⟩], 5661) := by decide

/-- A fade-in pair is (PERIOD - v, v), and in exact arithmetic the value after 2834 is 2828. -/
theorem test_ramp_step_exact :
    after (withTurn .engine exactFading) (fun t => (t.outq, match t.engine with
      | .ramp .fadeIn 1 r => r.trunc
      | _ => 0)) = some ([⟨2834, 2834⟩], 2828) := by decide +kernel

/-- In the Target form the fade-out from 1 raises RAMP_RANGE at k = 1 (41_ramp.md R89). -/
theorem test_ramp_range :
    after (withTurn .engine (engineStep targetFading)) (fun t => (t.err, t.cause, t.outq, t.engine))
      = some (true, .rampRange, [⟨1, 5667⟩], .idle) := by decide

/-! The registers and the errors (95_test_vectors.md sections 5 and 6) -/

theorem test_read_constants : readValue .period demo = some (some 0x00001624) ∧ readValue .fade demo = some (some 0x0B120236) := by
  decide

/-- With OUT_DEPTH = 1 and an unread pair, a QUANT holds: BUSY, OUT_VALID and OUT_FULL read 1 and LASTQ_V reads 1. -/
theorem test_status_full :
    readValue .status { emitting with outq := [⟨2834, 2834⟩], cfg := { demoParams with extraDepth := 0 } }
      = some (some 0x00000017) := by decide

/-- A command while busy raises CMD_BUSY, with no sample recorded: STATUS reads 0x0000_0208 (program P5). -/
theorem test_command_while_busy :
    after (withCommandWrite 0x00010000 (startRamp .fadeIn 2834 1 demo)) (regValue .status) = some 0x00000208 := by decide

/-- An illegal word: STATUS reads 0x0000_0108 (program P6). -/
theorem test_illegal_command : after (withCommandWrite 0x00040000 demo) (regValue .status) = some 0x00000108 := by decide

/-- A CTRL write of 0x8000_0001 in error resets, and bit 0 is ignored (program P4). -/
theorem test_soft_reset :
    after (withHostOp (HostOp.wr .ctrl 0x80000001) failed) (fun t => (regValue .status t, regValue .ctrl t, t.outq))
      = some (0, 0, []) := by decide

/-- The reset state runs a command placed by `withFetchWord`. -/
theorem test_with_fetch_word :
    after (State.reset.withFetchWord 32 0x00017FFF) (fun t => (t.lastq, t.engine)) = some (5667, .emit1 ⟨5667, 1⟩) := by decide

/-- `rd OUT` and `drain` append to one list L, in the order read; a read of an empty OUT returns 0 and no pair
(20_memory.md R47, 70_reset_and_hazards.md R136, program P1 line 11). -/
theorem test_pairs_read :
    after (withHostOp (HostOp.rd .out) { holding with pairsRead := [⟨1, 5667⟩] }) State.pairsRead
        = some [⟨1, 5667⟩, ⟨5667, 1⟩]
      ∧ after (withHostOp .drainTake { holding with pairsRead := [⟨1, 5667⟩] }) State.pairsRead
        = some [⟨1, 5667⟩, ⟨5667, 1⟩]
      ∧ after (withHostOp (HostOp.rd .out) demo) (fun t => (t.pairsRead, t.reads.map BusRead.value)) = some ([], [0]) := by
  decide

/-- The clip of one sample 0 with selector `PWM`, written out from 70_reset_and_hazards.md R127. -/
theorem test_clip_program :
    clipProgram .dualChannel 0 [] =
      [HostOp.wr .ctrl 0x00000001, HostOp.wr .cmd 0x00020000, .drain, HostOp.wr .cmd 0x00010000, .drain,
        HostOp.wr .cmd 0x00030000, .drain, HostOp.rd .status] := by decide

/-- The read of STATUS at the end of a clip gives the pairs where ERR = 0, and none where it is 1 (R127). -/
theorem test_clip_check :
    after (withHostOp (HostOp.rd .status) { sampled with pairsRead := [⟨1, 1⟩] }) clipPairs = some (some [⟨1, 1⟩])
      ∧ after (withHostOp (HostOp.rd .status) failed) clipPairs = some none := by decide

/-- After the last access of P1 a run is over, with its pairs and STATUS 0x0000_0010; with a pair queued it is not
(70_reset_and_hazards.md R136). -/
theorem test_run_result :
    State.result? { sampled with pairsRead := [⟨5667, 1⟩] } = some ⟨[⟨5667, 1⟩], 0x00000010⟩
      ∧ State.result? holding = none := by decide

/-! Witnesses of the obligations' hypotheses -/

theorem demo_legal : demo.cfg.Legal := by decide

/-- Both disjuncts. -/
theorem witness_ResetClearsEveryField : (State.reset = State.reset ∨ State.reset = resetBlock failed)
    ∧ (resetBlock failed = State.reset ∨ resetBlock failed = resetBlock failed) := ⟨.inl rfl, .inr rfl⟩

theorem witness_BothResetsResetAnyState : failed.cfg.Legal ∧ (0x80000001#32).getLsbD 31 = true := by decide

/-- `demo` built with another clock, at one sample a tick: PERIOD is the clock. -/
def clocked (clk : Nat) : State := { demo with cfg := { demoParams with clkHz := clk, rateHz := 1 } }

/-- PERIOD = 9 and PERIOD = 65536, and the legal bounds 10 and 65535. -/
theorem witness_IllegalParametersAreRefused :
    ¬ (10 ≤ (clocked 9).cfg.clkHz / (clocked 9).cfg.rateHz ∧ (clocked 9).cfg.clkHz / (clocked 9).cfg.rateHz ≤ 65535)
      ∧ ¬ (10 ≤ (clocked 65536).cfg.clkHz / (clocked 65536).cfg.rateHz
        ∧ (clocked 65536).cfg.clkHz / (clocked 65536).cfg.rateHz ≤ 65535)
      ∧ (clocked 10).cfg.Legal ∧ (clocked 65535).cfg.Legal := by decide

theorem witness_NoStepChangesTheConfiguration : nextState? (step (withTurn .engine emitting)) ≠ none := by decide

/-- A word under each clause, at the ends of IMM and of the other OP values. -/
theorem witness_DecodeByFields :
    (0x00110000#32).toNat / 2 ^ 20 ≠ 0 ∧ (0x0001FFFF#32).toNat / 2 ^ 16 % 16 = 1 ∧ (0x00020000#32).toNat / 2 ^ 16 % 16 = 2
      ∧ ((0x00030000#32).toNat / 2 ^ 16 % 16 = 3 ∧ (0x00030000#32).toNat % 2 ^ 16 = 0)
      ∧ ((0x0003FFFF#32).toNat / 2 ^ 16 % 16 = 3 ∧ (0x0003FFFF#32).toNat % 2 ^ 16 ≠ 0)
      ∧ (0x00000000#32).toNat / 2 ^ 16 % 16 = 0 ∧ (0x000F0000#32).toNat / 2 ^ 16 % 16 = 15 := by decide

theorem witness_WordDecodesIffOneRowMatches :
    decode 0x0001FFFF = .ok (.quant 0xFFFF) ∧ opRow .fadeout ∈ opcodeTable ∧ (opRow .fadeout).Spells 0x00030000 :=
  ⟨rfl, by decide, by decide⟩

theorem witness_DecodeEncodeRoundTrip :
    Instr.wf (.quant 0x8000) = true ∧ Instr.wf (.fadein 0x7FFF) = true ∧ Instr.wf .fadeout = true
      ∧ decode 0x00027FFF = .ok (.fadein 0x7FFF) := ⟨by decide, by decide, rfl, rfl⟩

/-- The ends of the ranges, and the values just outside them. -/
theorem witness_AssemblerEncodesOperands :
    ((-32768 : Int) ≤ 32767 ∧ (-32768 : Int) ≤ 32767) ∧ ¬ ((-32768 : Int) ≤ 32768 ∧ (32768 : Int) ≤ 32767)
      ∧ ((-32768 : Int) ≤ 65535 ∧ (65535 : Int) ≤ 65535) ∧ ¬ ((-32768 : Int) ≤ -32769 ∧ (-32769 : Int) ≤ 65535)
      ∧ ¬ ((-32768 : Int) ≤ 65536 ∧ (65536 : Int) ≤ 65535) := by decide

theorem witness_StepRunsTheDecodedCommand :
    ((withCommandWrite 0x00018000 demo).cfg.Legal ∧ nextTurn (withCommandWrite 0x00018000 demo) = .host
        ∧ (withCommandWrite 0x00018000 demo).program = HostOp.wr .cmd 0x00018000 :: [])
      ∧ nextTurn (withHostOp (.busAccess 0x48 .w32 (.write 0x00018000)) demo) = .host
      ∧ (withHostOp (.busAccess 0x48 .w32 (.write 0x00018000)) demo).program
        = .busAccess (demo.cfg.base + 8) .w32 (.write 0x00018000) :: []
      ∧ decode 0x00018000 = .ok (.quant 0x8000) ∧ decodeTableWord 32 0x00030000 = some .fadeout :=
  ⟨by decide, rfl, rfl, rfl, rfl⟩

theorem witness_CommandDispatch : demo.cfg.Legal ∧ emitting.cfg.Legal ∧ failed.cfg.Legal := by decide

/-- RSV = 1, OP = 0, OP = 4, OP = 15, and FADEOUT with IMM = 1. -/
theorem witness_IllegalWordsRaiseIllegalCmd :
    demo.cfg.Legal ∧ demo.err = false ∧ demo.engine = .idle
      ∧ (0x00100000#32).toNat / 2 ^ 20 ≠ 0 ∧ (0x00000000#32).toNat / 2 ^ 16 % 16 = 0
      ∧ 4 ≤ (0x00040000#32).toNat / 2 ^ 16 % 16 ∧ 4 ≤ (0x000F0000#32).toNat / 2 ^ 16 % 16
      ∧ ((0x00030001#32).toNat / 2 ^ 16 % 16 = 3 ∧ (0x00030001#32).toNat % 2 ^ 16 ≠ 0) := by decide

theorem witness_CommandWhileBusyIsAnError : emitting.cfg.Legal ∧ emitting.err = false ∧ emitting.engine ≠ .idle := by decide

/-- One side runs, the other does not. -/
theorem witness_EveryWellFormedTransitionRuns :
    nextState? (step (withHostOp (HostOp.rd .out) demo)) ≠ none
      ∧ nextState? (step (withHostOp (.access ⟨2, .w32, .read⟩) demo)) = none := by decide

theorem witness_QuantizeIsScaledSample : Params.Legal demoParams := by decide

/-- The two ends of the sample range. -/
theorem witness_QuantizeRange :
    Params.Legal demoParams ∧ (-32768 : Int) ≤ -32768 ∧ (-32768 : Int) ≤ 32767 ∧ (-32768 : Int) ≤ 32767 ∧ (32767 : Int) ≤ 32767 := by
  decide

theorem witness_QuantizeLaws : Params.Legal demoParams ∧ demoParams.period = 5668
    ∧ ((-32768 : Int) ≤ -32745 ∧ (-32745 : Int) ≤ -32744 ∧ (-32744 : Int) ≤ 32767) := by decide

theorem witness_QuantizeLaws_values :
    (quantize demoParams (-32745)).toNat = 1 ∧ (quantize demoParams (-32744)).toNat = 2
      ∧ scaledSample demoParams (-32757) = 0 ∧ scaledSample demoParams (-32756) = 1 := by decide

/-- Both ends of the range of `q`. -/
theorem witness_PayloadPairWords : Params.Legal demoParams ∧ 1 ≤ (1#16).toNat ∧ (1#16).toNat ≤ demoParams.period - 1
    ∧ 1 ≤ (5667#16).toNat ∧ (5667#16).toNat ≤ demoParams.period - 1 := by decide

theorem witness_QuantCompletes : demo.cfg.Legal ∧ demo.err = false ∧ demo.engine = .idle
    ∧ nextState? (exec (.quant 0x8000) demo) ≠ none := by decide

theorem witness_EngineEmitsTheHeldPair : emitting.cfg.Legal ∧ emitting.err = false ∧ emitting.engine = .emit1 ⟨5667, 1⟩
    ∧ emitting.outq.length < emitting.cfg.outDepth := by decide

theorem witness_FadeCommandsStartTheirRamps : sampled.cfg.Legal ∧ sampled.err = false ∧ sampled.engine = .idle
    ∧ sampled.lastqV = true ∧ nextState? (exec (.fadein 0x7FFF) sampled) ≠ none ∧ nextState? (exec .fadeout sampled) ≠ none := by
  decide

theorem witness_FadeoutWithoutSampleIsAnError : demo.cfg.Legal ∧ demo.err = false ∧ demo.engine = .idle
    ∧ demo.lastqV = false := by decide

theorem witness_EngineRampStep : fading.cfg.Legal ∧ fading.err = false
    ∧ fading.engine = .ramp .fadeOut 0 (rampInit fading.cfg 5667 2834) ∧ fading.outq.length < fading.cfg.outDepth := by decide

/-- A queue of 566 places, and 566 turns of the engine. -/
theorem witness_RampPushesNPairs :
    let s : State := { fading with cfg := { fading.cfg with extraDepth := 565 }, turns := List.replicate (566 - 0) .engine ++ [] }
    s.cfg.Legal ∧ s.err = false ∧ s.engine = .ramp .fadeOut 0 (rampInit fading.cfg 5667 2834) ∧ 0 < s.cfg.fadeSize
      ∧ s.outq.length + (s.cfg.fadeSize - 0) ≤ s.cfg.outDepth
      ∧ s.turns = List.replicate (s.cfg.fadeSize - 0) .engine ++ [] := by
  refine ⟨by decide, rfl, rfl, by decide, by decide, rfl⟩

/-- Both ends of the range of `start`. -/
theorem witness_RampStartsAtItsStart : 0 ≤ 65535 ∧ 65535 ≤ 65535 := by decide

theorem witness_FromIntIsExact : (5667 : Int).natAbs < 2 ^ 24 ∧ (-16777215 : Int).natAbs < 2 ^ 24 := by decide

theorem witness_SubtractionRoundsToNearestEven :
    ((Binary32.fromInt 2834).units - (Binary32.fromInt (-5667)).units).natAbs ≤ (2 ^ 24 - 1) * 2 ^ 253 := by decide

theorem witness_DivisionRoundsToNearestEven :
    (Binary32.fromInt 566).mag ≠ 0
      ∧ (Binary32.fromInt 2833).mag * 2 ^ 149 ≤ (2 ^ 24 - 1) * 2 ^ 253 * (Binary32.fromInt 566).mag := by decide

/-- The two smallest magnitudes, one unit and two units of 2^-149. -/
theorem witness_SubnormalDifferenceIsExact :
    ((⟨false, 0, 1⟩ : Binary32).units - (⟨true, 0, 2⟩ : Binary32).units).natAbs < 2 ^ 23 := by decide

/-- A step above 0, of 0, and below 0. -/
theorem witness_BinaryRampIsMonotone :
    ((Binary32.fromInt 2834).units - (Binary32.fromInt 5).units).natAbs ≤ (2 ^ 24 - 1) * 2 ^ 253
      ∧ 0 ≤ (Binary32.fromInt 5).units ∧ 0 ≤ (Binary32.fromInt 0).units ∧ (Binary32.fromInt 0).units ≤ 0
      ∧ (Binary32.fromInt (-5)).units ≤ 0 := by decide

theorem witness_EngineStepsExactlyWhenEnabled : emitting.cfg.Legal ∧ demo.cfg.Legal := by decide

/-- The engine ready, and not ready because it is idle, because of an error, and because the queue is full. -/
theorem witness_EngineIsFairlyTreated :
    (emitting.cfg.Legal ∧ emitting.turns = [] ∧ EngineReady emitting) ∧ ¬ EngineReady demo ∧ ¬ EngineReady failed
      ∧ ¬ EngineReady { emitting with outq := [⟨1, 1⟩, ⟨1, 1⟩, ⟨1, 1⟩, ⟨1, 1⟩] } := by decide

/-- A push, a pop by a read of OUT, a pop by `drain`, and a reset. -/
theorem witness_QueueIsFirstInFirstOut :
    after (withTurn .engine emitting) State.outq = some [⟨5667, 1⟩]
      ∧ after (withHostOp (HostOp.rd .out) holding) State.outq = some []
      ∧ after (withHostOp .drainTake holding) State.outq = some []
      ∧ after (withTurn .powerOn holding) State.outq = some [] := by decide

/-- Bits 5, 7, 11 and 31 are reserved. -/
theorem witness_StatusBits : failed.cfg.Legal ∧ ((5 ≤ 5 ∧ 5 ≤ 7) ∧ (5 ≤ 7 ∧ 7 ≤ 7)) ∧ ((11 ≤ 11 ∧ 11 ≤ 31) ∧ (11 ≤ 31 ∧ 31 ≤ 31)) := by
  decide

theorem witness_CtrlReadAndWrite : holding.cfg.Legal := by decide

theorem witness_OutReadPops : demo.cfg.Legal ∧ demo.outq = [] ∧ holding.cfg.Legal ∧ holding.outq = ⟨5667, 1⟩ :: [] := by decide

theorem witness_ConstantAndReservedRegisters : demo.cfg.Legal ∧ demo.cfg.clkHz = 125000000 ∧ demo.cfg.rateHz = 22050 := by decide

theorem witness_ReservedBitsAndReadOnlyRegisters : demo.cfg.Legal ∧ (0x7FFFFFFF#32).getLsbD 31 = false
    ∧ 1 ≤ 31 ∧ ((5 ≤ 5 ∧ 5 ≤ 7) ∧ (5 ≤ 7 ∧ 7 ≤ 7)) ∧ 11 ≤ 31 := by decide

/-- Offsets 0 and 28, and the addresses BASE and BASE + 28, run; -4, 32, BASE - 4 and BASE + 32 do not. -/
theorem witness_OtherAccessesAreRefused :
    demo.cfg.Legal ∧ refusal? (withHostOp (.access ⟨0, .w32, .read⟩) demo) = none
      ∧ refusal? (withHostOp (.access ⟨28, .w32, .read⟩) demo) = none
      ∧ refusal? (withHostOp (.access ⟨-4, .w32, .read⟩) demo) ≠ none
      ∧ refusal? (withHostOp (.access ⟨32, .w32, .read⟩) demo) ≠ none
      ∧ refusal? (withHostOp (.busAccess 0x40 .w32 .read) demo) = none
      ∧ refusal? (withHostOp (.busAccess 0x5C .w32 .read) demo) = none
      ∧ refusal? (withHostOp (.busAccess 0x3C .w32 .read) demo) ≠ none
      ∧ refusal? (withHostOp (.busAccess 0x60 .w32 .read) demo) ≠ none := by decide

theorem witness_WindowLayout :
    (Reg.ctrl, 0x00) ∈ [(Reg.ctrl, 0x00), (Reg.reserved, 0x1C)] ∧ (Reg.reserved, 0x1C) ∈ [(Reg.ctrl, 0x00), (Reg.reserved, 0x1C)]
      ∧ demo.cfg.base = 0x40 := by decide

/-- The engine busy with an empty queue, a pair in the queue, and neither. -/
theorem witness_WaitidleAndDrainRounds : (emitting.cfg.Legal ∧ emitting.engine ≠ .idle ∧ emitting.outq = [])
    ∧ (holding.cfg.Legal ∧ holding.outq ≠ []) ∧ (demo.cfg.Legal ∧ demo.engine = .idle ∧ demo.outq = []) := by decide

/-- At the start of the fade-out from 5667, with `drain` the host's program. -/
def draining : State := { fading with program := [.drain] }

/-- `draining` meets the invariant of 10_state.md R35. -/
theorem draining_inv : draining.Inv where
  legal := by decide
  queueFits := by decide
  errIdle := by decide
  causeErr := by decide
  noSample := by decide
  sample := by decide
  engineWf := ⟨by decide, rfl, fun _ => rfl⟩

theorem witness_DrainEmptiesTheBlock : draining.Inv ∧ draining.turns = [] ∧ draining.program = .drain :: [] :=
  ⟨draining_inv, rfl, rfl⟩

/-- One step into each of the five causes. -/
theorem witness_ErrorsHaveTheirCauses :
    (demo.err = false ∧ after (withCommandWrite 0x00000000 demo) (fun t => (t.err, t.cause)) = some (true, .illegalCmd))
      ∧ (emitting.err = false ∧ after (withCommandWrite 0 emitting) (fun t => (t.err, t.cause)) = some (true, .cmdBusy))
      ∧ after (withCommandWrite 0x00030000 demo) (fun t => (t.err, t.cause)) = some (true, .noSample)
      ∧ ((engineStep targetFading).err = false
        ∧ after (withTurn .engine (engineStep targetFading)) (fun t => (t.err, t.cause)) = some (true, .rampRange))
      ∧ after (withHostOp (HostOp.wr .ctrl 1) emitting) (fun t => (t.err, t.cause)) = some (true, .ctrlBusy) := by decide

theorem witness_TransitionsWhileInError : failed.cfg.Legal ∧ failed.err = true ∧ (1#32).getLsbD 31 = false
    ∧ (0x80000000#32).getLsbD 31 = true := by decide

/-- A step that keeps the error, and the two resets. -/
theorem witness_ErrorLastsUntilReset :
    failed.err = true ∧ after (withCommandWrite 0x00010000 failed) State.err = some true
      ∧ after (withHostOp (HostOp.wr .ctrl 0x80000000) failed) State.err = some false
      ∧ after (withTurn .powerOn failed) State.err = some false := by decide

/-- A CTRL write that selects DualChannel, and a reset that leaves it. -/
theorem witness_ModeChangesOnlyWhileIdle :
    demo.mode = .dualPhase ∧ after (withHostOp (HostOp.wr .ctrl 1) demo) State.mode = some .dualChannel
      ∧ holding.mode = .dualChannel ∧ after (withTurn .powerOn holding) State.mode = some .dualPhase := by decide

/-- A QUANT, and a reset. -/
theorem witness_OnlyQuantWritesTheLastSample :
    after (withCommandWrite 0x00010000 demo) State.lastq = some 2834
      ∧ after (withTurn .powerOn sampled) State.lastqV = some false := by decide

/-- Each command where it is accepted, and one while the engine is busy. -/
theorem witness_CommandFrame :
    nextState? (exec (.quant 0) sampled) ≠ none ∧ nextState? (exec (.fadein 0) sampled) ≠ none
      ∧ nextState? (exec .fadeout sampled) ≠ none ∧ sampled.engine = .idle
      ∧ nextState? (exec .fadeout emitting) ≠ none ∧ emitting.engine ≠ .idle := by decide

theorem witness_StepKeepsTheInvariant : draining.Inv ∧ nextState? (step draining) ≠ none := ⟨draining_inv, by decide⟩

theorem witness_ResetMeetsTheInvariant : failed.cfg.Legal := by decide

theorem exactFading_inv : ExactInv exactFading where
  base :=
    { legal := by decide
      queueFits := by decide
      errIdle := by decide
      causeErr := by decide
      noSample := by decide
      sample := by decide
      engineWf := ⟨by decide, rfl, nofun⟩ }
  arith := rfl
  stepForm := rfl
  track := ⟨2834, 1, ⟨by decide, by decide, by decide⟩, by decide +kernel, by decide +kernel⟩
  clean := ⟨nofun, by decide⟩

theorem witness_StepKeepsExactRampsInRange : ExactInv exactFading ∧ nextState? (step exactFading) ≠ none :=
  ⟨exactFading_inv, by decide +kernel⟩

theorem witness_ExactRampValues : ExactInv exactFading
    ∧ exactFading.engine = .ramp .fadeIn 0 (rampInit exactFading.cfg 2834 1) := ⟨exactFading_inv, rfl⟩

theorem fading_inv : DefaultInv fading where
  base :=
    { legal := by decide
      queueFits := by decide
      errIdle := by decide
      causeErr := by decide
      noSample := by decide
      sample := by decide
      engineWf := ⟨by decide, rfl, fun _ => rfl⟩ }
  period := by decide
  arith := rfl
  stepForm := rfl
  track := ⟨5667, 2834, ⟨by decide, by decide⟩, ⟨by decide +kernel, by decide +kernel⟩, ⟨by decide +kernel, by decide +kernel⟩⟩
  clean := ⟨nofun, by decide⟩

theorem witness_StepKeepsDefaultRampsInRange : DefaultInv fading ∧ nextState? (step fading) ≠ none :=
  ⟨fading_inv, by decide⟩

theorem witness_BinaryRampIsNearExact : DefaultInv fading ∧ fading.engine = .ramp .fadeOut 0 (rampInit fading.cfg 5667 2834) :=
  ⟨fading_inv, rfl⟩

theorem witness_ResetMeetsTheRampInvariants : exactFading.cfg.Legal ∧ exactFading.cfg.rampArith = .exact
    ∧ exactFading.cfg.rampStepForm = .distance := by decide

theorem witness_ResetEventsSetTheStateTuple : failed.cfg.Legal ∧ (0xFFFFFFFF#32).getLsbD 31 = true := by decide

/-- A run that is over, and one not over for each of the three reasons. -/
theorem witness_RunResultIsPairsAndStatus :
    (sampled.program = [] ∧ sampled.engine = .idle ∧ sampled.outq = [])
      ∧ ¬ ((draining).program = []) ∧ emitting.engine ≠ .idle ∧ holding.outq ≠ [] := by decide

end Sys2Proof.Tests
end

section
/-! The parameter set (00_scope.md): what an illegal one refuses, the bounds a legal one gives, and the values of this
hardware. -/

namespace Sys2Proof.Machine

open Sys2Proof

/-- A step of a block with an illegal parameter set is refused (00_scope.md R13). -/
theorem step_of_illegal {s : State} (h : ¬ s.cfg.Legal) : step s = .refused .illegalParameters := by
  rw [step, transition, if_neg h]

/-- Every command checks the parameter set before anything else (00_scope.md R13, 30_encoding.md R69). -/
theorem exec_of_illegal {s : State} (h : ¬ s.cfg.Legal) (i : Instr) : exec i s = .refused .illegalParameters := by
  rw [exec_eq_whenReady, whenReady_of_illegal h]

/-- PERIOD fits 16 bits, and its product with a 16-bit word fits 32 (00_scope.md R13). -/
theorem period_bounds_of_legal {p : Params} (h : p.Legal) : p.period < 2 ^ 16 ∧ 65535 * p.period < 2 ^ 32 := by
  have hp : p.period ≤ 65535 := h.2
  omega

theorem thisHardware_period : Config.thisHardware.period = 5668 := rfl

theorem thisHardware_legal : Config.thisHardware.Legal := by
  rw [Params.Legal, thisHardware_period]
  decide

theorem thisHardware_fadeSize : Config.thisHardware.fadeSize = 566 := by
  rw [Params.fadeSize, thisHardware_period]

theorem thisHardware_silence : Config.thisHardware.silence = 2834 := by
  rw [Params.silence, thisHardware_period]

/-- Settles O3: a step and a command both test `Params.Legal` first; the bounds are those on PERIOD and N. -/
theorem illegalParametersAreRefused : Obligations.IllegalParametersAreRefused := by
  refine ⟨fun s h => ?refusal, fun p h => ?bounds, thisHardware_legal, thisHardware_period⟩
  case refusal =>
    have hl : ¬ s.cfg.Legal := h
    exact ⟨step_of_illegal hl, exec_of_illegal hl⟩
  case bounds =>
    obtain ⟨hN, -⟩ := Params.Legal.constants h
    exact ⟨hN, period_bounds_of_legal h⟩

/-- Settles O4: the three divisions are the definitions, and PERIOD = 5668 fixes the other two values. -/
theorem constantsOfThisHardware : Obligations.ConstantsOfThisHardware :=
  ⟨fun _ => ⟨rfl, rfl, rfl⟩, thisHardware_period, thisHardware_fadeSize, thisHardware_silence⟩

end Sys2Proof.Machine
end

section
/-! The state tuple and its invariants (10_state.md R20 to R35): what a CTRL write and a command dispatch leave unchanged,
what the queue, the mode and the last sample can become in one step, and that every step keeps the invariants. -/

namespace Sys2Proof.Machine

open Sys2Proof

/-! The invariants are kept (10_state.md R25, R35) -/

theorem SameBlock.engineWf {s t : State} (h : SameBlock s t) (hw : EngineWf s) : EngineWf t := by
  simpa only [EngineWf, h.engine, h.lastqV, h.cfg, h.mode, h.lastq] using hw

/-- The invariants speak of the block only. -/
theorem SameBlock.inv {s t : State} (h : SameBlock s t) (hi : s.Inv) : t.Inv where
  legal := by simpa only [h.cfg] using hi.legal
  queueFits := by simpa only [h.outq, h.cfg] using hi.queueFits
  errIdle := by simpa only [h.err, h.engine] using hi.errIdle
  causeErr := by simpa only [h.cause, h.err] using hi.causeErr
  noSample := by simpa only [h.lastqV, h.lastq] using hi.noSample
  sample := by simpa only [h.lastqV, h.lastq, h.cfg] using hi.sample
  engineWf := h.engineWf hi.engineWf

/-- The reset values meet the invariants at every legal parameter set (10_state.md R32). -/
theorem resetBlock_inv {s : State} (hl : s.cfg.Legal) : (resetBlock s).Inv where
  legal := hl
  queueFits := Nat.zero_le _
  errIdle := fun _ => rfl
  causeErr := by simp
  noSample := fun _ => rfl
  sample := fun h => by simp at h
  engineWf := trivial

theorem pop_inv {s : State} (hi : s.Inv) : (pop s).Inv where
  legal := hi.legal
  queueFits := by
    have := hi.queueFits
    simp only [pop_outq, List.length_tail, pop_cfg]
    omega
  errIdle := hi.errIdle
  causeErr := hi.causeErr
  noSample := hi.noSample
  sample := hi.sample
  engineWf := hi.engineWf

/-- The error latch abandons the command in progress, so the engine is idle with an error (60_exceptions.md R104). -/
theorem raiseError_inv {s : State} (hi : s.Inv) {c : Cause} (hc : c ≠ .none) : (raiseError c s).Inv := by
  cases he : s.err with
  | true => rwa [raiseError_of_err he]
  | false =>
    rw [raiseError_of_ok he]
    exact {
      legal := hi.legal
      queueFits := hi.queueFits
      errIdle := fun _ => rfl
      causeErr := by simp [hc]
      noSample := hi.noSample
      sample := hi.sample
      engineWf := trivial }

/-- While no error is recorded, the queue may become any that fits and the engine any that R25 allows. -/
theorem State.Inv.with_queue_engine {s : State} (hi : s.Inv) (he : s.err = false) {q : List Pair}
    (hq : q.length ≤ s.cfg.outDepth) {e : Engine} (hw : EngineWf { s with outq := q, engine := e }) :
    State.Inv { s with outq := q, engine := e } where
  legal := hi.legal
  queueFits := hq
  errIdle := fun h => by simp [he] at h
  causeErr := hi.causeErr
  noSample := hi.noSample
  sample := hi.sample
  engineWf := hw

/-- A ramp goes on to a control state that R25 allows: the next step of N, or idle after the last (41_ramp.md R84). -/
theorem engineWf_rampNext {s t : State} {kind : RampKind} {k : Nat} {r : RampAcc} (hs : s.engine = .ramp kind k r)
    (hw : EngineWf s) (hc : t.cfg = s.cfg) (hv : t.lastqV = s.lastqV) (ht : t.engine = rampNext s.cfg kind k r) :
    EngineWf t := by
  simp only [EngineWf, hs] at hw
  obtain ⟨hk, hr, hout⟩ := hw
  unfold rampNext at ht
  split at ht
  · simp [EngineWf, ht]
  · simp only [EngineWf, ht, hc, hv]
    exact ⟨by omega, advance_hasArith hr, hout⟩

theorem engineStep_inv {s : State} (hi : s.Inv) (hr : EngineReady s) : (engineStep s).Inv := by
  have ⟨he, _, hroom⟩ := hr
  have hpush (p : Pair) : (s.outq ++ [p]).length ≤ s.cfg.outDepth := by simpa using hroom
  rcases engineStep_cases hr with ⟨p, -, h⟩ | ⟨kind, k, r, -, -, h⟩ | ⟨kind, k, r, hs, -, h⟩ <;> rw [h]
  · exact hi.with_queue_engine he (hpush p) (e := .idle) trivial
  · exact raiseError_inv hi (by decide)
  · exact hi.with_queue_engine he (hpush _) (engineWf_rampNext hs hi.engineWf rfl rfl rfl)

/-- Only an idle engine lets a CTRL write change the mode, so a held pair stays that of the mode (40_quantizer.md R76). -/
theorem writeCtrl_inv {s : State} (hi : s.Inv) (v : Word) : (writeCtrl v s).Inv := by
  rcases writeCtrl_cases v s with ⟨-, h⟩ | ⟨-, -, h⟩ | ⟨-, -, -, h⟩ | ⟨-, -, hidle, h⟩ <;> rw [h]
  · exact resetBlock_inv hi.legal
  · exact hi
  · exact raiseError_inv hi (by decide)
  · exact {
      legal := hi.legal
      queueFits := hi.queueFits
      errIdle := hi.errIdle
      causeErr := hi.causeErr
      noSample := hi.noSample
      sample := hi.sample
      engineWf := by simp [EngineWf, hidle] }

/-- A quantized sample is a word in [1, PERIOD-1] (40_quantizer.md R72). -/
theorem quantize_wordInRange {p : Params} (h : p.Legal) {x : Int} (hx : x ≤ 32767) : WordInRange p (quantize p x) := by
  have h1 := scaledSample_lt h hx
  have h2 : 10 ≤ p.period := h.1
  rw [WordInRange, quantize_toNat h hx]
  split <;> omega

theorem acceptQuant_inv {s : State} (hi : s.Inv) (he : s.err = false) {x : Int} (hx : x ≤ 32767) :
    (acceptQuant x s).Inv where
  legal := hi.legal
  queueFits := hi.queueFits
  errIdle := fun h => by simp [he] at h
  causeErr := hi.causeErr
  noSample := fun h => by simp at h
  sample := fun _ => quantize_wordInRange hi.legal hx
  engineWf := ⟨rfl, rfl⟩

/-- A ramp may start while no error is recorded; a fade-out needs a sample (41_ramp.md R83, R87). -/
theorem startRamp_inv {s : State} (hi : s.Inv) (he : s.err = false) {kind : RampKind}
    (hk : kind = .fadeOut → s.lastqV = true) (start stop : Int) : (startRamp kind start stop s).Inv := by
  obtain ⟨hN, -⟩ := Params.Legal.constants hi.legal
  exact hi.with_queue_engine he hi.queueFits ⟨hN, rampInit_hasArith _ _ _, hk⟩

theorem accepted_inv {s : State} (hi : s.Inv) (he : s.err = false) (i : Instr) : (accepted i s).Inv := by
  cases i with
  | quant imm => exact acceptQuant_inv hi he (s16_range imm).2
  | fadein imm => exact startRamp_inv hi he (by simp) _ _
  | fadeout =>
    change (acceptFadeOut s).Inv
    cases hv : s.lastqV with
    | true =>
      rw [acceptFadeOut_of_sample hv]
      exact startRamp_inv hi he (fun _ => hv) _ _
    | false =>
      rw [acceptFadeOut_of_none hv]
      exact raiseError_inv hi (by decide)

theorem dispatch_inv {v : Word} {s t : State} (hi : s.Inv) (h : dispatch v s = .next t) : t.Inv := by
  obtain ⟨-, ⟨-, rfl⟩ | ⟨-, -, rfl⟩ | ⟨-, -, e, -, rfl⟩ | ⟨he, -, i, -, rfl⟩⟩ := dispatch_cases h
  · exact hi
  · exact raiseError_inv hi (by decide)
  · exact raiseError_inv hi (by decide)
  · exact accepted_inv hi he i

/-- Settles O50: each of the effects that `step_cases` lists keeps the invariants. -/
theorem stepKeepsTheInvariant : Obligations.StepKeepsTheInvariant := by
  intro s t hi h
  obtain ⟨-, u, hu, -, -, heff⟩ := step_cases h
  have hui : u.Inv := hu.inv hi
  rcases heff with hsame | ⟨-, rfl⟩ | ⟨-, hr, rfl⟩ | ⟨-, hpop, -⟩ | ⟨v, -, -, rfl⟩ | ⟨v, -, hd⟩
  · exact hsame.inv hui
  · exact resetBlock_inv hui.legal
  · exact engineStep_inv hui hr
  · exact hpop.inv (pop_inv hui)
  · exact writeCtrl_inv hui v
  · exact dispatch_inv hui hd

/-- Settles O51: `State.reset` is the reset of itself, and its parameter set is legal. -/
theorem resetMeetsTheInvariant : Obligations.ResetMeetsTheInvariant :=
  ⟨resetBlock_inv (s := State.reset) thisHardware_legal, fun _ => resetBlock_inv⟩

/-! What a CTRL write and a command dispatch leave unchanged (20_memory.md R44, 60_exceptions.md R104) -/

@[simp] theorem writeCtrl_cfg (v : Word) (s : State) : (writeCtrl v s).cfg = s.cfg := by
  rcases writeCtrl_cases v s with ⟨-, h⟩ | ⟨-, -, h⟩ | ⟨-, -, -, h⟩ | ⟨-, -, -, h⟩ <;> simp [h]

/-- A CTRL write that is no reset writes neither the queue nor the last sample. -/
theorem writeCtrl_keeps {v : Word} (hv : v.getLsbD 31 = false) (s : State) :
    (writeCtrl v s).outq = s.outq ∧ (writeCtrl v s).lastq = s.lastq ∧ (writeCtrl v s).lastqV = s.lastqV := by
  rcases writeCtrl_cases v s with ⟨h31, -⟩ | ⟨-, -, h⟩ | ⟨-, -, -, h⟩ | ⟨-, -, -, h⟩
  · cases hv.symm.trans h31
  all_goals simp [h]

/-- A CTRL write that is no reset and changes the mode was made with no error and the engine idle, and takes bit 0. -/
theorem writeCtrl_mode_of_ne {v : Word} {s : State} (hv : v.getLsbD 31 = false) (h : (writeCtrl v s).mode ≠ s.mode) :
    s.err = false ∧ s.engine = .idle ∧ (writeCtrl v s).mode = modeOfBit (v.getLsbD 0) := by
  rcases writeCtrl_cases v s with ⟨h31, -⟩ | ⟨-, -, hw⟩ | ⟨-, -, -, hw⟩ | ⟨-, he, hi, hw⟩
  · cases hv.symm.trans h31
  · simp [hw] at h
  · simp [hw] at h
  · exact ⟨he, hi, by rw [hw]⟩

/-- No command, legal or not, writes the parameter set, the mode or the queue. -/
theorem dispatch_keeps {v : Word} {s t : State} (h : dispatch v s = .next t) :
    t.cfg = s.cfg ∧ t.mode = s.mode ∧ t.outq = s.outq := by
  obtain ⟨-, ⟨-, rfl⟩ | ⟨-, -, rfl⟩ | ⟨-, -, e, -, rfl⟩ | ⟨-, -, i, -, rfl⟩⟩ := dispatch_cases h <;> simp

/-- A command that changes the last sample is an accepted QUANT (10_state.md R26). -/
theorem dispatch_lastq_of_ne {v : Word} {s t : State} (h : dispatch v s = .next t)
    (hne : t.lastq ≠ s.lastq ∨ t.lastqV ≠ s.lastqV) :
    s.err = false ∧ s.engine = .idle
      ∧ ∃ imm, decode v = .ok (.quant imm) ∧ t.lastq = quantize s.cfg (s16 imm) ∧ t.lastqV = true := by
  obtain ⟨-, ⟨-, rfl⟩ | ⟨-, -, rfl⟩ | ⟨-, -, e, -, rfl⟩ | ⟨he, hi, i, hd, rfl⟩⟩ := dispatch_cases h
  · simp at hne
  · simp at hne
  · simp at hne
  · by_cases hq : ∃ imm, i = .quant imm
    · obtain ⟨imm, rfl⟩ := hq
      exact ⟨he, hi, imm, hd, rfl, rfl⟩
    · have hkeep := accepted_lastq (fun imm h => hq ⟨imm, h⟩) s
      simp [hkeep] at hne

/-! What one step can change (10_state.md R20, R21, R24, R26) -/

/-- Settles O5: no effect that `step_cases` lists writes the parameter set. -/
theorem noStepChangesTheConfiguration : Obligations.NoStepChangesTheConfiguration := by
  intro s t h
  obtain ⟨-, u, hu, -, -, heff⟩ := step_cases h
  rw [← hu.cfg]
  rcases heff with hsame | ⟨-, rfl⟩ | ⟨-, -, rfl⟩ | ⟨-, hpop, -⟩ | ⟨v, -, -, rfl⟩ | ⟨v, -, hd⟩
  · exact hsame.cfg
  · exact resetBlock_cfg u
  · exact engineStep_cfg u
  · exact hpop.cfg
  · exact writeCtrl_cfg v u
  · exact (dispatch_keeps hd).1

/-- Settles O47: of the effects that `step_cases` lists, only a reset and a CTRL write touch the mode. -/
theorem modeChangesOnlyWhileIdle : Obligations.ModeChangesOnlyWhileIdle := by
  intro s t h hne
  obtain ⟨-, u, hu, -, -, heff⟩ := step_cases h
  rw [← hu.mode] at hne
  rcases heff with hsame | ⟨hr, rfl⟩ | ⟨-, -, rfl⟩ | ⟨-, hpop, -⟩ | ⟨v, hw, hv, rfl⟩ | ⟨v, -, hd⟩
  · exact absurd hsame.mode hne
  · exact .inr ⟨hr, resetBlock_mode u⟩
  · exact absurd (engineStep_mode u) hne
  · exact absurd hpop.mode hne
  · obtain ⟨he, hi, hm⟩ := writeCtrl_mode_of_ne hv hne
    exact .inl ⟨hu.err ▸ he, hu.engine ▸ hi, v, hw, hv, hm⟩
  · exact absurd (dispatch_keeps hd).2.1 hne

/-- Settles O48: of the effects that `step_cases` lists, only a reset and an accepted QUANT touch the last sample. -/
theorem onlyQuantWritesTheLastSample : Obligations.OnlyQuantWritesTheLastSample := by
  intro s t h hne
  obtain ⟨-, u, hu, -, -, heff⟩ := step_cases h
  rw [← hu.lastq, ← hu.lastqV] at hne
  have hkept (hq : t.lastq = u.lastq) (hv : t.lastqV = u.lastqV) : False := by simp [hq, hv] at hne
  rcases heff with hsame | ⟨hr, rfl⟩ | ⟨-, -, rfl⟩ | ⟨-, hpop, -⟩ | ⟨v, -, hv, rfl⟩ | ⟨v, hw, hd⟩
  · exact (hkept hsame.lastq hsame.lastqV).elim
  · exact .inr ⟨hr, resetBlock_lastq u, resetBlock_lastqV u⟩
  · exact (hkept (engineStep_lastq u) (engineStep_lastqV u)).elim
  · exact (hkept hpop.lastq hpop.lastqV).elim
  · obtain ⟨-, hq, hqV⟩ := writeCtrl_keeps hv u
    exact (hkept hq hqV).elim
  · obtain ⟨he, hi, imm, hdec, hq, hqV⟩ := dispatch_lastq_of_ne hd hne
    exact .inl ⟨hu.err ▸ he, hu.engine ▸ hi, v, imm, hw, hdec, hu.cfg ▸ hq, hqV⟩

/-- An engine step appends one pair or leaves the queue (40_quantizer.md R76, 41_ramp.md R84). -/
theorem engineStep_outq {s : State} (h : EngineReady s) :
    (engineStep s).outq = s.outq ∨ ∃ p, (engineStep s).outq = s.outq ++ [p] := by
  rcases engineStep_cases h with ⟨p, -, h⟩ | ⟨kind, k, r, -, -, h⟩ | ⟨kind, k, r, -, -, h⟩
  · exact .inr ⟨p, by rw [h, emitStep_outq]⟩
  · exact .inl (by rw [h, raiseError_outq])
  · exact .inr ⟨_, by rw [h, push_outq]⟩

/-- OUT reads the head pair, W2 in the high half (00_scope.md R18, 20_memory.md R47). -/
theorem regValue_out_cons {s : State} {p : Pair} {q : List Pair} (h : s.outq = p :: q) : regValue .out s = pack p := by
  simp only [regValue, h]

/-- Settles O34: the engine's push, the host's pop and the reset are the only effects of `step_cases` on the queue. -/
theorem queueIsFirstInFirstOut : Obligations.QueueIsFirstInFirstOut := by
  intro s t h
  obtain ⟨-, u, hu, hreads, hpairs, heff⟩ := step_cases h
  rw [← hu.outq, ← hu.cfg, ← hreads, ← hpairs]
  rcases heff with hsame | ⟨hr, rfl⟩ | ⟨ht, hready, rfl⟩ | ⟨ht, hpop, hgot⟩ | ⟨v, -, hv, rfl⟩ | ⟨v, -, hd⟩
  · exact .inl hsame.outq
  · exact .inr (.inr (.inr ⟨hr, resetBlock_outq u⟩))
  · rcases engineStep_outq hready with hkeep | happend
    · exact .inl hkeep
    · exact .inr (.inl ⟨ht, hready.2.2, happend⟩)
  · have htail : t.outq = u.outq.tail := hpop.outq
    cases hq : u.outq with
    | nil => exact .inl (by rw [htail, hq, List.tail_nil])
    | cons p q =>
      rw [pairsAfterRead_out_cons hq, regValue_out_cons hq, unpack_pack] at hgot
      rw [hq, List.tail_cons] at htail
      refine .inr (.inr (.inl ⟨ht, p, by rw [htail], ?_⟩))
      rcases hgot with ⟨hrd, hl⟩ | ⟨hl, hrd⟩
      · exact ⟨hl, .inl hrd⟩
      · exact ⟨hl, .inr hrd⟩
  · exact .inl (writeCtrl_keeps hv u).1
  · exact .inl (dispatch_keeps hd).2.2

/-! The engine's turn (10_state.md R33) -/

/-- An engine that has a step changes the state by it: the control state, the error latch or the queue. -/
theorem engineStep_ne {s : State} (h : EngineReady s) : engineStep s ≠ s := by
  intro heq
  rcases engineStep_cases h with ⟨p, hs, h'⟩ | ⟨kind, k, r, -, -, h'⟩ | ⟨kind, k, r, -, -, h'⟩
  · have : s.engine = .idle := by rw [← heq, h', emitStep_engine]
    simp [hs] at this
  · have : s.err = true := by rw [← heq, h', raiseError_err]
    simp [h.1] at this
  · have hlen := congrArg (fun t => t.outq.length) (h' ▸ heq)
    simp at hlen

theorem engineTurn_ne_iff (s : State) : engineTurn s ≠ s ↔ EngineReady s := by
  unfold engineTurn
  split
  · exact iff_of_true (engineStep_ne ‹_›) ‹_›
  · exact iff_of_false (fun h => h rfl) ‹_›

/-- Settles O32: the engine's turn is `engineTurn`, which moves the state exactly when the engine is ready. -/
theorem engineStepsExactlyWhenEnabled : Obligations.EngineStepsExactlyWhenEnabled :=
  fun s hl => ⟨engineTurn s, step_withTurn hl .engine, engineTurn_ne_iff s⟩

/-! STATUS and CTRL as they read (10_state.md R22, R32) -/

/-- The bits of STATUS above LASTQ_V: CAUSE in bits 10:8, and every other bit reads 0 (10_state.md R22). -/
theorem statusWord_getLsbD_high (s : State) {i : Nat} (h : 5 ≤ i) :
    (statusWord s).getLsbD i =
      if i < 8 then false else if i < 11 then s.cause.code.getLsbD (i - 8) else false := by
  rw [statusWord_getLsbD, if_neg, if_neg, if_neg, if_neg, if_neg] <;> omega

/-- STATUS.CAUSE is the code of the cause (10_state.md R22). -/
theorem statusWord_cause (s : State) : (statusWord s).extractLsb' 8 3 = s.cause.code := by
  apply BitVec.eq_of_getLsbD_eq
  intro i hi
  rw [BitVec.getLsbD_extractLsb', statusWord_getLsbD_high s (by omega), if_neg (by omega), if_pos (by omega),
    Nat.add_sub_cancel_left, decide_eq_true hi, Bool.true_and]

/-- Bits 7:5 and 31:11 of STATUS are reserved and read 0 (10_state.md R22). -/
theorem statusWord_reserved (s : State) {i : Nat} (h : (5 ≤ i ∧ i ≤ 7) ∨ (11 ≤ i ∧ i ≤ 31)) :
    (statusWord s).getLsbD i = false := by
  rw [statusWord_getLsbD_high s (by omega)]
  rcases h with h | h
  · rw [if_pos (by omega)]
  · rw [if_neg (by omega), if_neg (by omega)]

/-- Settles O35: the two accesses are those of `hostOp_rd` and `hostOp_wr`, and the bits those of `statusWord_getLsbD`. -/
theorem statusBits : Obligations.StatusBits := by
  intro s v hl w
  have hbit (i : Nat) := statusWord_getLsbD s i
  refine ⟨?read, ?write, ?busy, ?outValid, ?outFull, ?err, ?lastqV, ?cause, fun i hi => statusWord_reserved s hi⟩
  case read =>
    rw [step_withHostOp hl, hostOp_rd]
    rfl
  case write => rw [step_withHostOp hl, hostOp_wr, writeReg]
  case busy => rw [show w.getLsbD 0 = busy s from hbit 0, busy, decide_eq_true_iff]
  case outValid => rw [show w.getLsbD 1 = outValid s from hbit 1, outValid, decide_eq_true_iff]
  case outFull => rw [show w.getLsbD 2 = outFull s from hbit 2, outFull, decide_eq_true_iff]
  case err => exact hbit 3
  case lastqV => exact hbit 4
  case cause =>
    change ((statusWord s).extractLsb' 8 3).toNat = _
    rw [statusWord_cause]
    cases s.cause <;> rfl

/-- After a reset STATUS reads 0; OUT_FULL does because OUT_DEPTH is at least 1 (10_state.md R32, 00_scope.md R12). -/
theorem statusWord_resetBlock (s : State) : statusWord (resetBlock s) = 0 := by
  have hfull : outFull (resetBlock s) = false := by simp [outFull, Params.outDepth]
  have hvalid : outValid (resetBlock s) = false := by simp [outValid]
  have hbusy : busy (resetBlock s) = false := by simp [busy]
  rw [statusWord, hfull, hvalid, hbusy, resetBlock_cause, resetBlock_lastqV, resetBlock_err]
  decide

/-- After a reset CTRL reads 0 (10_state.md R32, 20_memory.md R44). -/
theorem ctrlWord_resetBlock (s : State) : ctrlWord (resetBlock s) = 0 := by
  rw [ctrlWord, resetBlock_mode]
  decide

/-- After a reset LASTQ reads 0 (10_state.md R32). -/
theorem regValue_lastq_resetBlock (s : State) : regValue .lastq (resetBlock s) = 0 := by
  rw [regValue, resetBlock_lastq]
  decide

/-- Every field of the tuple after a reset of the block, and the three registers that show them. -/
theorem resetBlock_clears (s : State) :
    (resetBlock s).mode = .dualPhase ∧ (resetBlock s).err = false ∧ (resetBlock s).cause = .none
      ∧ (resetBlock s).outq = [] ∧ (resetBlock s).engine = .idle ∧ (resetBlock s).lastq = 0
      ∧ (resetBlock s).lastqV = false ∧ regValue .ctrl (resetBlock s) = 0 ∧ regValue .status (resetBlock s) = 0
      ∧ regValue .lastq (resetBlock s) = 0 :=
  ⟨rfl, rfl, rfl, rfl, rfl, rfl, rfl, ctrlWord_resetBlock s, statusWord_resetBlock s,
    regValue_lastq_resetBlock s⟩

/-- Settles O1: `State.reset` is the reset of itself. -/
theorem resetClearsEveryField : Obligations.ResetClearsEveryField := by
  rintro s t (rfl | rfl)
  · exact resetBlock_clears State.reset
  · exact resetBlock_clears t

end Sys2Proof.Machine
end

section
/-! The register window (20_memory.md): which transitions run, what a read of each register gives, what a write of each
does, and how a CMD write reaches the command its word decodes to. -/

namespace Sys2Proof.Machine

open Sys2Proof

/-! Which transitions run (20_memory.md R42, R53) -/

/-- There is no fault, so an outcome that is no next state is a refusal (log entry 8). -/
theorem refused_iff_not_next (o : Host.Outcome State Fault Refusal) :
    (∃ e, o = .refused e) ↔ ¬ ∃ t, o = .next t := by
  cases o with
  | next t => simp
  | fault f => cases f
  | refused e => simp

/-- At a legal parameter set the checks before a command end in a next state (30_encoding.md R69). -/
theorem exists_next_whenReady {s : State} (hl : s.cfg.Legal) (f : State → State) :
    ∃ t, whenReady s (fun s => .next (f s)) = .next t := by
  cases he : s.err with
  | true => exact ⟨_, whenReady_of_err hl he _⟩
  | false =>
    by_cases hi : s.engine = .idle
    · exact ⟨_, whenReady_of_ready hl he hi _⟩
    · exact ⟨_, whenReady_of_busy hl he hi _⟩

/-- Every write to a register ends in a next state (20_memory.md R44 to R52). -/
theorem exists_next_writeReg {s : State} (hl : s.cfg.Legal) (r : Reg) (v : Word) : ∃ t, writeReg r v s = .next t := by
  cases r with
  | cmd =>
    rw [writeReg, dispatch_eq_whenReady]
    exact exists_next_whenReady hl _
  | _ => exact ⟨_, rfl⟩

theorem exists_next_regAccess {s : State} (hl : s.cfg.Legal) (r : Reg) (op : AccessOp) :
    ∃ t, regAccess r op s = .next t := by
  cases op with
  | read => exact ⟨_, rfl⟩
  | write v => exact exists_next_writeReg hl r v

/-- An access runs exactly when it is well formed (20_memory.md R42). -/
theorem exists_next_hostAccess_iff {s : State} (hl : s.cfg.Legal) (a : Access) :
    (∃ t, hostAccess a s = .next t) ↔ a.wf = true := by
  have hrefuse := accessReg_refuses_iff a
  cases hr : accessReg a with
  | ok r =>
    rw [hr] at hrefuse
    rw [hostAccess_of_reg hr]
    exact iff_of_true (exists_next_regAccess hl r a.op) (by simpa using hrefuse)
  | error e =>
    have hwf : a.wf = false := hrefuse.1 ⟨e, hr⟩
    simp [hostAccess, hr, hwf]

/-- An operation of the host's program runs exactly when it is well formed (20_memory.md R42, 30_encoding.md R67). -/
theorem exists_next_hostOp_iff {s : State} (hl : s.cfg.Legal) (op : HostOp) :
    (∃ t, hostOp op s = .next t) ↔ op.wf s.cfg = true := by
  cases op with
  | access a => exact exists_next_hostAccess_iff hl a
  | busAccess addr width aop => exact exists_next_hostAccess_iff hl (accessAt s.cfg addr width aop)
  | waitIdle | drain | drainTake => exact iff_of_true ⟨_, rfl⟩ rfl

/-- Where the host moves next and its program is over, the step changes nothing but the list of turns. -/
theorem step_of_programOver {s : State} (hl : s.cfg.Legal) (ht : nextTurn s = .host) (hp : s.program = []) :
    step s = .next (takeTurn s) := by
  rw [step_of_legal hl, ht, turn, hostTurn, takeTurn_program, hp]

/-- Settles O15: an engine step and a power-on reset always run, and a host turn as its operation does. -/
theorem everyWellFormedTransitionRuns : Obligations.EveryWellFormedTransitionRuns := by
  intro s
  by_cases hl : s.cfg.Legal
  case neg => simp [step_of_illegal hl, hl]
  rw [and_iff_right hl]
  cases ht : nextTurn s with
  | engine => exact iff_of_true ⟨_, by rw [step_of_legal hl, ht, turn]⟩ (fun _ _ h => by cases h)
  | powerOn => exact iff_of_true ⟨_, by rw [step_of_legal hl, ht, turn]⟩ (fun _ _ h => by cases h)
  | host =>
    cases hp : s.program with
    | nil => exact iff_of_true ⟨_, step_of_programOver hl ht hp⟩ (fun _ _ _ h => by cases h)
    | cons op rest =>
      have hrun := exists_next_hostOp_iff (s := { s with turns := s.turns.tail, program := rest }) hl op
      rw [step_of_hostOp hl ht hp, hrun]
      exact ⟨fun h _ _ _ heq => by cases heq; exact h, fun h => h op rest rfl rfl⟩

/-- A host operation is refused exactly when it is ill formed (20_memory.md R42). -/
theorem step_withHostOp_refused_iff {s : State} (hl : s.cfg.Legal) (op : HostOp) :
    (∃ e, step (withHostOp op s) = .refused e) ↔ ¬ op.wf s.cfg = true := by
  rw [step_withHostOp hl, refused_iff_not_next, exists_next_hostOp_iff hl]

theorem Access.wf_iff (a : Access) : a.wf = true ↔ a.width = .w32 ∧ 0 ≤ a.off ∧ a.off ≤ 28 ∧ a.off % 4 = 0 := by
  rw [Access.wf, decide_eq_true_iff]
  refine and_congr_right fun _ => ?_
  omega

/-- Since BASE is a multiple of 32, a bus address is aligned in the window as it is on the bus (00_scope.md R12). -/
theorem accessAt_wf_iff (p : Params) (addr : Nat) (width : AccessWidth) (op : AccessOp) :
    (accessAt p addr width op).wf = true ↔ width = .w32 ∧ p.base ≤ addr ∧ addr < p.base + 32 ∧ addr % 4 = 0 := by
  rw [Access.wf_iff, accessAt, Params.base]
  refine and_congr_right fun _ => ?_
  simp only
  omega

/-- Settles O40: a refused operation is an ill-formed one, at an offset and at an address. -/
theorem otherAccessesAreRefused : Obligations.OtherAccessesAreRefused := by
  intro s hl
  constructor
  · intro a
    rw [step_withHostOp_refused_iff hl, HostOp.wf, Access.wf_iff]
  · intro addr width op
    rw [step_withHostOp_refused_iff hl, HostOp.wf, accessAt_wf_iff]

/-- Settles O41: each entry of the list is a register with its own offset. -/
theorem windowLayout : Obligations.WindowLayout := by
  intro s op
  refine ⟨Nat.mul_mod_right 32 _, fun r off h => ?_⟩
  have hoff : off = r.offset := by
    simp only [List.mem_cons, List.not_mem_nil, or_false] at h
    rcases h with h | h | h | h | h | h | h | h <;> cases h <;> rfl
  rw [hoff, hostOp_busAccess_reg]

/-! A CMD write (20_memory.md R43, R46, R57) -/

/-- The four byte lanes of a word make the word again (20_memory.md R43). -/
theorem wordOfLanes_laneByte (v : Word) :
    wordOfLanes (laneByte v 0) (laneByte v 1) (laneByte v 2) (laneByte v 3) = v := by
  have h2 : laneByte v 3 ++ laneByte v 2 = v.extractLsb' 16 16 := BitVec.extractLsb'_append_extractLsb'_eq_extractLsb' rfl
  have h1 : v.extractLsb' 16 16 ++ laneByte v 1 = v.extractLsb' 8 24 :=
    BitVec.extractLsb'_append_extractLsb'_eq_extractLsb' rfl
  have h0 : v.extractLsb' 8 24 ++ laneByte v 0 = v := BitVec.extractLsb'_append_extractLsb'
  rw [wordOfLanes, h2, h1, h0]

/-- The decoder on the byte lanes of a word is the decoder on the word (20_memory.md R43). -/
theorem decodeBytes_bytesOfWord (v : Word) : decodeBytes (bytesOfWord v) = decode v := by
  rw [bytesOfWord, decodeBytes, wordOfLanes_laneByte]

theorem decodeTableWord_eq_some {nbits w : Nat} {i : Instr} :
    decodeTableWord nbits w = some i ↔ decode (tableWord nbits w) = .ok i := by
  rw [decodeTableWord, decodeBytes_bytesOfWord]
  cases decode (tableWord nbits w) <;> simp [Except.toOption]

/-- Dispatch of a word that decodes to a command is that command's meaning (30_encoding.md R69). -/
theorem dispatch_of_decode {v : Word} {i : Instr} (h : decode v = .ok i) (s : State) : dispatch v s = exec i s := by
  rw [dispatch, h]

/-- A CMD write, at the register's offset or at its bus address, is the dispatch of its word (20_memory.md R46). -/
theorem hostOp_of_writesCmd {op : HostOp} {v : Word} {s : State} (h : WritesReg s.cfg op .cmd v) :
    hostOp op s = dispatch v s := by
  rcases h with rfl | rfl
  · rw [hostOp_wr, writeReg]
  · rw [hostOp_busAccess_reg, regAccess, writeReg]

/-- Settles O11: a CMD write is the dispatch of its word, in both of its forms. -/
theorem stepRunsTheDecodedCommand : Obligations.StepRunsTheDecodedCommand := by
  constructor
  · intro s rest v i hl ht hp hd
    obtain ⟨op, hop, hw⟩ : ∃ op, s.program = op :: rest ∧ WritesReg s.cfg op .cmd v :=
      hp.elim (fun h => ⟨_, h, .inl rfl⟩) (fun h => ⟨_, h, .inr rfl⟩)
    calc step s = hostOp op { s with turns := s.turns.tail, program := rest } := step_of_hostOp hl ht hop
      _ = dispatch v _ := hostOp_of_writesCmd hw
      _ = exec i _ := dispatch_of_decode hd _
  · intro s nbits w i hl hd
    rw [State.withFetchWord, withCommandWrite, step_withHostOp hl, hostOp_of_writesCmd (.inl rfl),
      dispatch_of_decode (decodeTableWord_eq_some.1 hd)]

/-! Reads and writes of the registers (20_memory.md R44 to R52, R59) -/

/-- A read of any register but OUT gives the host its value and has no side effect (20_memory.md R59). -/
theorem step_rd_of_ne_out {s : State} (hl : s.cfg.Legal) {r : Reg} (hr : r ≠ .out) :
    step (withHostOp (HostOp.rd r) s) = .next { s with reads := s.reads ++ [⟨r, regValue r s⟩] } := by
  rw [step_withHostOp hl, hostOp_rd, afterRead_of_ne_out hr, pairsAfterRead_of_ne_out hr]

/-- A write to any register but CTRL and CMD is ignored (20_memory.md R45, R47 to R52). -/
theorem step_wr_ignored {s : State} (hl : s.cfg.Legal) {r : Reg} (hctrl : r ≠ .ctrl) (hcmd : r ≠ .cmd) (v : Word) :
    step (withHostOp (HostOp.wr r v) s) = .next s := by
  rw [step_withHostOp hl, hostOp_wr]
  cases r with
  | ctrl => exact absurd rfl hctrl
  | cmd => exact absurd rfl hcmd
  | _ => rfl

theorem step_wr_ctrl {s : State} (hl : s.cfg.Legal) (v : Word) :
    step (withHostOp (HostOp.wr .ctrl v) s) = .next (writeCtrl v s) := by
  rw [step_withHostOp hl, hostOp_wr, writeReg]

/-- A CTRL write with the whole next state of each branch (20_memory.md R44, 60_exceptions.md R103). -/
theorem writeCtrl_eq (v : Word) (s : State) :
    writeCtrl v s =
      if v.getLsbD 31 = true then
        { s with mode := .dualPhase, err := false, cause := .none, outq := [], engine := .idle, lastq := 0, lastqV := false }
      else if s.err = true then s
      else if s.engine ≠ .idle then { s with err := true, cause := .ctrlBusy, engine := .idle }
      else { s with mode := if v.getLsbD 0 = false then .dualPhase else .dualChannel } := by
  rcases writeCtrl_cases v s with ⟨h31, h⟩ | ⟨h31, he, h⟩ | ⟨h31, he, hb, h⟩ | ⟨h31, he, hi, h⟩
  · rw [h, if_pos h31, resetBlock]
  · rw [h, if_neg (ne_true_of_eq_false h31), if_pos he]
  · rw [h, if_neg (ne_true_of_eq_false h31), if_neg (ne_true_of_eq_false he), if_pos hb, raiseError_of_ok he]
  · rw [h, if_neg (ne_true_of_eq_false h31), if_neg (ne_true_of_eq_false he), if_neg (fun hb => hb hi)]
    cases v.getLsbD 0 <;> rfl

/-- Settles O36: CTRL reads as its mode bit, and a write is `writeCtrl`. -/
theorem ctrlReadAndWrite : Obligations.CtrlReadAndWrite := by
  intro s v hl
  constructor
  · rw [step_rd_of_ne_out hl (by decide), regValue, ctrlWord]
    cases s.mode <;> rfl
  · rw [step_wr_ctrl hl, writeCtrl_eq]

/-- Settles O37: the empty queue and the queue with a head are the two cases of a read of OUT. -/
theorem outReadPops : Obligations.OutReadPops := by
  intro s hl
  rw [step_withHostOp hl, hostOp_rd, afterRead]
  constructor
  · intro hq
    rw [pairsAfterRead_out_nil hq, pop, regValue, hq, List.tail_nil]
  · intro p rest hq
    rw [pairsAfterRead_out_cons hq, regValue_out_cons hq, pop, hq, List.tail_cons, pack, concat]

/-- PERIOD reads as the number PERIOD, which fits 16 bits (20_memory.md R48). -/
theorem regValue_period_toNat {s : State} (hl : s.cfg.Legal) : (regValue .period s).toNat = s.cfg.period := by
  rw [regValue, zext32_toNat, half_toNat_of_lt (period_bounds_of_legal hl).1]

/-- FADE reads as SILENCE in the high half and N in the low half (20_memory.md R49). -/
theorem regValue_fade_toNat {s : State} (hl : s.cfg.Legal) :
    (regValue .fade s).toNat = s.cfg.silence * 2 ^ 16 + s.cfg.fadeSize := by
  have hp : s.cfg.period ≤ 65535 := hl.2
  obtain ⟨-, hN, -, hS⟩ := Params.Legal.constants hl
  rw [regValue, concat_toNat, half_toNat_of_lt (by omega), half_toNat_of_lt (by omega)]

theorem regValue_lastq_toNat (s : State) : (regValue .lastq s).toNat = s.lastq.toNat := zext32_toNat s.lastq

/-- The constants of every parameter set with the default clock and rate (00_scope.md R7 to R9). -/
theorem constants_of_defaultRates {p : Params} (hc : p.clkHz = 125000000) (hr : p.rateHz = 22050) :
    p.period = 0x1624 ∧ p.silence * 2 ^ 16 + p.fadeSize = 0x0B120236 := by
  have hp : p.period = 5668 := by rw [Params.period, hc, hr]
  rw [Params.silence, Params.fadeSize, hp]
  decide

/-- Settles O38: none of the four registers is OUT, CTRL or CMD, and their values are those of `regValue`. -/
theorem constantAndReservedRegisters : Obligations.ConstantAndReservedRegisters := by
  intro s v hl reads
  have hread {r : Reg} (hr : r ≠ .out) {n : Nat} (hn : (regValue r s).toNat = n) : reads r n :=
    ⟨regValue r s, hn, step_rd_of_ne_out hl hr⟩
  have hperiod : reads .period s.cfg.period := hread (by decide) (regValue_period_toNat hl)
  have hfade : reads .fade (s.cfg.silence * 2 ^ 16 + s.cfg.fadeSize) := hread (by decide) (regValue_fade_toNat hl)
  refine ⟨hperiod, hfade, hread (by decide) (regValue_lastq_toNat s), hread (by decide) rfl, ?defaults, ?writes⟩
  case defaults =>
    intro hc hr
    obtain ⟨hP, hF⟩ := constants_of_defaultRates hc hr
    exact ⟨hP ▸ hperiod, hF ▸ hfade⟩
  case writes =>
    rintro r (rfl | rfl | rfl | rfl) <;> exact step_wr_ignored hl (by decide) (by decide) v

/-- Bits 31:1 of CTRL are reserved and read 0 (20_memory.md R44, R52). -/
theorem ctrlWord_reserved (s : State) {i : Nat} (h : 1 ≤ i) : (ctrlWord s).getLsbD i = false := by
  have hbits : (ctrlWord s).getLsbD i = ((0 : BitVec 31) ++ BitVec.ofBool s.mode.bit).getLsbD i := rfl
  rw [hbits, BitVec.getLsbD_append, if_neg (by omega)]
  exact BitVec.getLsbD_zero

/-- Of a CTRL write only bits 31 and 0 have an effect (20_memory.md R44, R52). -/
theorem writeCtrl_congr {v w : Word} (h31 : v.getLsbD 31 = w.getLsbD 31) (h0 : v.getLsbD 0 = w.getLsbD 0) (s : State) :
    writeCtrl v s = writeCtrl w s := by
  rw [writeCtrl, writeCtrl, h31, h0]

/-- Settles O39: read-only registers by `step_wr_ignored`, reserved bits by the bits of the two words, and bits 30:1 of a
CTRL write because `writeCtrl` tests bits 31 and 0 only. -/
theorem reservedBitsAndReadOnlyRegisters : Obligations.ReservedBitsAndReadOnlyRegisters := by
  intro s v hl
  refine ⟨?readOnly, step_rd_of_ne_out hl (by decide), fun i hi => ctrlWord_reserved s hi, ?status, fun hv => ?ctrl⟩
  case readOnly =>
    rintro r (rfl | rfl | rfl | rfl | rfl) <;> exact step_wr_ignored hl (by decide) (by decide) v
  case status =>
    rintro i (h | h)
    · exact statusWord_reserved s (.inl h)
    · rw [regValue, statusWord_getLsbD_high s (by omega), if_neg (by omega), if_neg (by omega)]
  case ctrl =>
    have h31 : v.getLsbD 31 = (v &&& 1).getLsbD 31 := by rw [hv, BitVec.getLsbD_and]; simp
    have h0 : v.getLsbD 0 = (v &&& 1).getLsbD 0 := by rw [BitVec.getLsbD_and]; simp
    rw [step_wr_ctrl hl, step_wr_ctrl hl, writeCtrl_congr h31 h0]

end Sys2Proof.Machine
end

section
/-! The command words (30_encoding.md): what the decoder answers by the fields of a word, that it inverts the encoder, the
opcode table, and the assembler. -/

namespace Sys2Proof.Machine

open Sys2Proof

/-! The decoder, by the fields of a word (30_encoding.md R61, R64, R68) -/

theorem fieldRsv_ne_zero_iff (v : Word) : fieldRsv v ≠ 0 ↔ v.toNat / 2 ^ 20 ≠ 0 := by
  rw [← fieldRsv_toNat, not_iff_not]
  exact BitVec.toNat_inj.symm

theorem fieldOp_eq_iff (v : Word) (op : BitVec 4) : fieldOp v = op ↔ v.toNat / 2 ^ 16 % 16 = op.toNat := by
  rw [← fieldOp_toNat, BitVec.toNat_inj]

theorem fieldImm_eq_ofNat (v : Word) : fieldImm v = BitVec.ofNat 16 (v.toNat % 2 ^ 16) := by
  rw [← fieldImm_toNat, BitVec.ofNat_toNat, BitVec.setWidth_eq]

theorem fieldImm_eq_zero_iff (v : Word) : fieldImm v = 0 ↔ v.toNat % 2 ^ 16 = 0 := by
  rw [← fieldImm_toNat]
  exact BitVec.toNat_inj.symm

/-- `Decode(v)` with RSV, OP and IMM as the numbers they are (30_encoding.md R68). -/
theorem decode_eq_of_numbers (v : Word) :
    decode v =
      if v.toNat / 2 ^ 20 ≠ 0 then .error .rsvNonzero
      else if v.toNat / 2 ^ 16 % 16 = 1 then .ok (.quant (BitVec.ofNat 16 (v.toNat % 2 ^ 16)))
      else if v.toNat / 2 ^ 16 % 16 = 2 then .ok (.fadein (BitVec.ofNat 16 (v.toNat % 2 ^ 16)))
      else if v.toNat / 2 ^ 16 % 16 = 3 then
        if v.toNat % 2 ^ 16 = 0 then .ok .fadeout else .error .immNonzero
      else .error .opUnassigned := by
  simp only [decode, fieldRsv_ne_zero_iff, fieldOp_eq_iff, fieldImm_eq_zero_iff, ← fieldImm_eq_ofNat]
  rfl

/-- The illegal words are those of R64's three classes, whichever reason the decoder gives. -/
theorem exists_decode_error_iff (v : Word) :
    (∃ e, decode v = .error e) ↔
      v.toNat / 2 ^ 20 ≠ 0 ∨ v.toNat / 2 ^ 16 % 16 = 0 ∨ 4 ≤ v.toNat / 2 ^ 16 % 16
        ∨ (v.toNat / 2 ^ 16 % 16 = 3 ∧ v.toNat % 2 ^ 16 ≠ 0) := by
  rw [decode_eq_of_numbers]
  split_ifs <;> simp <;> omega

/-- Settles O7: a legal word falls in one branch of `decode_eq_of_numbers`, any other in a class of
`exists_decode_error_iff`. -/
theorem decodeByFields : Obligations.DecodeByFields := by
  intro v rsv op imm
  have hillegal := (exists_decode_error_iff v).2
  refine ⟨fun hr => hillegal (.inl hr), ?quant, ?fadein, ?fadeout, fun _ ho hi => hillegal (.inr (.inr (.inr ⟨ho, hi⟩))),
    fun _ h1 h2 h3 => hillegal (by omega)⟩
  case quant =>
    intro hr ho
    rw [decode_eq_of_numbers, if_neg (not_not.2 hr), if_pos ho]
  case fadein =>
    intro hr ho
    rw [decode_eq_of_numbers, if_neg (not_not.2 hr), if_neg (by omega), if_pos ho]
  case fadeout =>
    intro hr ho hi
    rw [decode_eq_of_numbers, if_neg (not_not.2 hr), if_neg (by omega), if_neg (by omega), if_pos ho, if_pos hi]

/-- Settles O6: the decoder evaluated at each of the seven words. -/
theorem sampleWordsDecode : Obligations.SampleWordsDecode :=
  ⟨rfl, rfl, rfl, rfl, rfl, rfl, rfl⟩

/-! Encoding and decoding (30_encoding.md R60 to R63) -/

theorem decode_encode (i : Instr) : decode (encode i) = .ok i := by
  cases i <;> simp [encode, decode, fieldRsv_formatC, fieldOp_formatC, fieldImm_formatC]

/-- The decoder reads all 32 bits of a word, so no other word decodes to an instruction than its encoding. -/
theorem encode_of_decode {v : Word} {i : Instr} (h : decode v = .ok i) : encode i = v := by
  unfold decode at h
  split at h
  case isTrue => cases h
  case isFalse hrsv =>
    have hv : v = formatC (fieldOp v) (fieldImm v) := eq_formatC_of_rsv (not_not.1 hrsv)
    split at h
    case isTrue hop => cases h; rw [encode, ← hop, ← hv]
    case isFalse =>
      split at h
      case isTrue hop => cases h; rw [encode, ← hop, ← hv]
      case isFalse =>
        split at h
        case isTrue hop =>
          split at h
          case isTrue himm => cases h; rw [encode, ← hop, ← himm, ← hv]
          case isFalse => cases h
        case isFalse => cases h

/-- A word decodes to an instruction exactly when it is the instruction's encoding. -/
theorem decode_eq_ok_iff {v : Word} {i : Instr} : decode v = .ok i ↔ v = encode i :=
  ⟨fun h => (encode_of_decode h).symm, fun h => h ▸ decode_encode i⟩

/-- Every instruction has its row in the table, its word matches the row, and its operand is a sample. -/
theorem opcodeRow_statement (i : Instr) : Laws.OpcodeRow.Statement i := by
  cases i with
  | quant imm => exact Laws.OpcodeRow.quant imm
  | fadein imm => exact Laws.OpcodeRow.fadein imm
  | fadeout => exact Laws.OpcodeRow.fadeout

theorem instr_wf (i : Instr) : i.wf = true := (opcodeRow_statement i).2.2

theorem tableWord_toNat (v : Word) : tableWord 32 v.toNat = v := by
  rw [tableWord, Nat.mod_eq_of_lt v.isLt, BitVec.ofNat_toNat, BitVec.setWidth_eq]

/-- Settles O9: the decoder inverts the encoder on words, and the byte lanes and the table form give the word back. -/
theorem decodeEncodeRoundTrip : Obligations.DecodeEncodeRoundTrip := by
  refine ⟨fun i _ => decode_encode i, fun v i h => ⟨encode_of_decode h, instr_wf i⟩, decodeBytes_bytesOfWord,
    fun i _ => ?_⟩
  rw [decodeTableWord_eq_some, tableWord_toNat, decode_encode]

/-! The opcode table (30_encoding.md R63) -/

/-- The words that match a row with the mask of QUANT and FADEIN are those of its OP, with any IMM. -/
theorem eq_formatC_of_and_high {v pattern : Word} {op : BitVec 4} (h : v &&& 0xFFFF0000#32 = pattern)
    (hp : pattern.toNat = op.toNat * 2 ^ 16) : v = formatC op (fieldImm v) := by
  have hhigh := and_high_toNat v
  apply BitVec.eq_of_toNat_eq
  rw [h, hp] at hhigh
  rw [formatC_toNat, fieldImm_toNat]
  omega

/-- A word that matches an instruction's row is the encoding of an instruction of that row. -/
theorem exists_encode_of_spells {v : Word} {r : OpRow} (hr : r ∈ opcodeTable) (h : r.Spells v) :
    ∃ i, v = encode i ∧ opRow i = r := by
  simp only [opcodeTable, List.mem_cons, List.not_mem_nil, or_false] at hr
  rcases hr with rfl | rfl | rfl
  · exact ⟨.quant (fieldImm v), eq_formatC_of_and_high h rfl, rfl⟩
  · exact ⟨.fadein (fieldImm v), eq_formatC_of_and_high h rfl, rfl⟩
  · exact ⟨.fadeout, (and_all v).symm.trans h, rfl⟩

/-- Settles O8: the words of a row are the encodings of its instructions; no two rows share a word, since a word decodes to
one instruction. -/
theorem wordDecodesIffOneRowMatches : Obligations.WordDecodesIffOneRowMatches := by
  have hrow (v : Word) (r) (hr : r ∈ opcodeTable) (h : r.Spells v) : ∃ i, decode v = .ok i ∧ opRow i = r := by
    obtain ⟨i, hv, hi⟩ := exists_encode_of_spells hr h
    exact ⟨i, decode_eq_ok_iff.2 hv, hi⟩
  refine ⟨rfl, fun v i h => ?own, hrow, fun v r hr r' hr' h h' => ?unique⟩
  case own =>
    obtain ⟨hmem, hspells, -⟩ := opcodeRow_statement i
    exact ⟨hmem, encode_of_decode h ▸ hspells⟩
  case unique =>
    obtain ⟨i, hi, rfl⟩ := hrow v r hr h
    obtain ⟨i', hi', rfl⟩ := hrow v r' hr' h'
    cases hi.symm.trans hi'
    rfl

/-! The assembler (30_encoding.md R66) -/

/-- The word with an operand's low 16 bits, `s & 0xFFFF`, in IMM. -/
theorem formatC_ofInt (op : BitVec 4) (n : Int) :
    formatC op (BitVec.ofInt 16 n) = BitVec.ofNat 32 (op.toNat * 2 ^ 16 + (n % 65536).toNat) := by
  have hop := op.isLt
  apply BitVec.eq_of_toNat_eq
  rw [formatC_toNat, BitVec.toNat_ofInt, BitVec.toNat_ofNat, Nat.mod_eq_of_lt (by omega)]
  rfl

/-- The pattern of a sample reads as the sample again (30_encoding.md R62). -/
theorem s16_ofInt {n : Int} (h : -32768 ≤ n ∧ n ≤ 32767) : s16 (BitVec.ofInt 16 n) = n :=
  BitVec.toInt_ofInt_eq_self (by decide) (by simpa using h.1) (by have := h.2; simp; omega)

/-- What the assembler makes of a command with an operand: its word, or nothing where the operand is rejected. -/
theorem assemble_operand (s : AsmOperand) :
    assemble (.quant s) = (if s.wf then some (formatC 1 s.imm) else none)
      ∧ assemble (.fadein s) = (if s.wf then some (formatC 2 s.imm) else none) := by
  cases h : s.wf <;> simp [assemble, AsmCommand.instr, h, encode]

/-- Settles O10: the operand's check is its range, and the word of an operand in range is `formatC_ofInt`. -/
theorem assemblerEncodesOperands : Obligations.AssemblerEncodesOperands := by
  intro n w
  have hquant : formatC 1 (BitVec.ofInt 16 n) = w 1 := formatC_ofInt 1 n
  have hfadein : formatC 2 (BitVec.ofInt 16 n) = w 2 := formatC_ofInt 2 n
  obtain ⟨hqd, hfd⟩ := assemble_operand (.dec n)
  obtain ⟨hqh, hfh⟩ := assemble_operand (.hex n)
  simp only [AsmOperand.wf, AsmOperand.imm, decide_eq_true_eq, hquant, hfadein] at hqd hfd hqh hfh
  rw [hqd, hfd, hqh, hfh]
  refine ⟨fun h => ?dec, fun h => ?_, fun h => ?_, fun h => ?_, rfl⟩
  case dec =>
    rw [if_pos h, if_pos h]
    exact ⟨rfl, rfl, _, decode_eq_ok_iff.2 hquant.symm, s16_ofInt h⟩
  · rw [if_neg h, if_neg h]; exact ⟨rfl, rfl⟩
  · rw [if_pos h, if_pos h]; exact ⟨rfl, rfl⟩
  · rw [if_neg h, if_neg h]; exact ⟨rfl, rfl⟩

end Sys2Proof.Machine
end

section
/-! Command dispatch (30_encoding.md R64, R69) and the transitions of `waitidle` and `drain` (R67). -/

namespace Sys2Proof.Machine

open Sys2Proof

/-- A CMD write that is put next is the dispatch of its word (20_memory.md R46). -/
theorem step_withCommandWrite {s : State} (hl : s.cfg.Legal) (v : Word) : step (withCommandWrite v s) = dispatch v s := by
  rw [withCommandWrite, step_withHostOp hl, hostOp_wr, writeReg]

/-- An illegal word, where dispatch accepts it, raises ILLEGAL_CMD and changes nothing else (30_encoding.md R64). -/
theorem dispatch_of_illegal {s : State} {v : Word} {e : Illegal} (hl : s.cfg.Legal) (he : s.err = false)
    (hi : s.engine = .idle) (hd : decode v = .error e) :
    dispatch v s = .next { s with err := true, cause := .illegalCmd } := by
  rw [dispatch, hd]
  simp only
  rw [whenReady_of_ready hl he hi, raiseError_of_ok he, ← hi]

/-- Settles O13: the words of the three classes are the illegal ones. -/
theorem illegalWordsRaiseIllegalCmd : Obligations.IllegalWordsRaiseIllegalCmd := by
  intro s v hl he hi hv
  obtain ⟨e, hd⟩ := (exists_decode_error_iff v).2 hv
  rw [step_withCommandWrite hl, dispatch_of_illegal hl he hi hd]

/-- Settles O12: the checks are those of `whenReady`, in their order, and after them the word decides. -/
theorem commandDispatch : Obligations.CommandDispatch := by
  intro s v hl
  rw [step_withCommandWrite hl, dispatch_eq_whenReady]
  cases he : s.err with
  | true => rw [whenReady_of_err hl he, if_pos rfl]
  | false =>
    rw [if_neg Bool.false_ne_true]
    by_cases hi : s.engine = .idle
    case neg => rw [whenReady_of_busy hl he hi, if_pos hi, raiseError_of_ok he]
    case pos =>
      rw [whenReady_of_ready hl he hi, if_neg (not_not.2 hi)]
      cases decode v with
      | error e => rw [← raiseError_of_ok he]
      | ok i => cases i <;> rfl

/-! The rounds of `waitidle` and `drain` (30_encoding.md R67) -/

theorem waitIdleRound_eq (s : State) : waitIdleRound s = if s.engine ≠ .idle then again .waitIdle s else s := by
  rw [waitIdleRound, status_busy]
  simp only [decide_eq_true_eq]

theorem drainRound_eq (s : State) :
    drainRound s =
      if s.outq ≠ [] then again .drainTake s else if s.engine ≠ .idle then again .drain s else s := by
  rw [drainRound, status_busy, status_outValid]
  simp only [decide_eq_true_eq]

/-- The pair that `drain` reads off OUT is the head of the queue, or (0, 0) (20_memory.md R47). -/
theorem unpack_regValue_out (s : State) : unpack (regValue .out s) = s.outq.headD ⟨0, 0⟩ := by
  cases hq : s.outq with
  | nil => rw [regValue, hq]; rfl
  | cons p q => rw [regValue_out_cons hq, unpack_pack, List.headD_cons]

theorem drainTakeRound_eq (s : State) :
    drainTakeRound s = again .drain { pop s with pairsRead := s.pairsRead ++ [s.outq.headD ⟨0, 0⟩] } := by
  rw [drainTakeRound, unpack_regValue_out, afterRead]

/-- Settles O42: each transition is its round, told by the engine and the queue. -/
theorem waitidleAndDrainRounds : Obligations.WaitidleAndDrainRounds := by
  intro s hl
  rw [step_withHostOp hl, step_withHostOp hl, step_withHostOp hl, hostOp, hostOp, hostOp, waitIdleRound_eq, drainRound_eq,
    drainTakeRound_eq]
  exact ⟨rfl, rfl, rfl⟩

end Sys2Proof.Machine
end

section
/-! A `drain` with no turns listed (30_encoding.md R67, log entry 1). Each of its steps keeps the pairs read, queued and
pending together as one list, or records a RAMP_RANGE, and lowers a count of the steps to come; so it ends, with that list
read. -/

namespace Sys2Proof.Machine

open Sys2Proof

/-! A step with no turns listed (20_memory.md R53, log entry 1) -/

theorem takeTurn_of_noTurns {s : State} (h : s.turns = []) : takeTurn s = s := by
  rw [takeTurn, h, List.tail_nil, ← h]

theorem step_of_engineReady {s : State} (hl : s.cfg.Legal) (ht : s.turns = []) (hr : EngineReady s) :
    step s = .next (engineStep s) := by
  have hn : nextTurn s = .engine := by simp only [nextTurn, ht, if_pos hr]
  rw [step_of_legal hl, hn, turn, takeTurn_of_noTurns ht, engineTurn, if_pos hr]

theorem step_of_not_engineReady {s : State} (hl : s.cfg.Legal) (ht : s.turns = []) (hr : ¬ EngineReady s) :
    step s = hostTurn s := by
  have hn : nextTurn s = .host := by simp only [nextTurn, ht, if_neg hr]
  rw [step_of_legal hl, hn, turn, takeTurn_of_noTurns ht]

/-- An engine that is busy without a step waits for room, so a pair is queued (10_state.md R33, R35). -/
theorem idle_of_not_engineReady {s : State} (hi : s.Inv) (hr : ¬ EngineReady s) (hq : s.outq = []) :
    s.engine = .idle := by
  by_contra hb
  have he : s.err = false := by
    rw [← Bool.not_eq_true]
    exact fun he => hb (hi.errIdle he)
  exact hr ⟨he, hb, by rw [hq]; exact Nat.succ_pos _⟩

/-! The pairs left to push (10_state.md R34, 41_ramp.md R84) -/

theorem pendingPairs_of_emit1 {s : State} {p : Pair} (h : s.engine = .emit1 p) :
    pendingPairs s = [p] ∧ pairsLeft s = 1 := by
  simp [pendingPairs, pairsLeft, h]

theorem pendingPairs_of_ramp {s : State} {kind : RampKind} {k : Nat} {r : RampAcc} (h : s.engine = .ramp kind k r) :
    pendingPairs s = rampPairs s.cfg kind s.mode (s.cfg.fadeSize - k) r ∧ pairsLeft s = s.cfg.fadeSize - k := by
  simp [pendingPairs, pairsLeft, h]

/-- After step `k` of a ramp the pairs of the later steps are left, none after the N-th (41_ramp.md R84). -/
theorem pendingPairs_of_rampNext {s : State} {kind : RampKind} {k : Nat} {r : RampAcc}
    (h : s.engine = rampNext s.cfg kind k r) :
    pendingPairs s = rampPairs s.cfg kind s.mode (s.cfg.fadeSize - (k + 1)) r.advance
      ∧ pairsLeft s = s.cfg.fadeSize - (k + 1) := by
  unfold rampNext at h
  split at h
  case isTrue hN => simp [pendingPairs_of_idle h, pairsLeft_of_idle h, hN]
  case isFalse => exact pendingPairs_of_ramp h

/-- An engine step pushes the first pair left, or finds a value out of range and records it with nothing left. -/
theorem engineStep_pending {s : State} (hi : s.Inv) (hr : EngineReady s) :
    (∃ p, (engineStep s).outq = s.outq ++ [p] ∧ pendingPairs s = p :: pendingPairs (engineStep s)
        ∧ pairsLeft s = pairsLeft (engineStep s) + 1
        ∧ (engineStep s).err = s.err ∧ (engineStep s).cause = s.cause)
      ∨ (engineStep s = { s with err := true, cause := .rampRange, engine := .idle }
        ∧ pendingPairs s = [] ∧ 0 < pairsLeft s) := by
  have hk {kind k r} (hs : s.engine = .ramp kind k r) : k < s.cfg.fadeSize := by
    have hw := hi.engineWf
    simp only [EngineWf, hs] at hw
    exact hw.1
  rcases engineStep_cases hr with ⟨p, hs, h⟩ | ⟨kind, k, r, hs, hout, h⟩ | ⟨kind, k, r, hs, hin, h⟩
  · obtain ⟨hp, hn⟩ := pendingPairs_of_emit1 hs
    refine .inl ⟨p, ?_⟩
    rw [h, hp, hn, pendingPairs_of_idle (emitStep_engine p s), pairsLeft_of_idle (emitStep_engine p s)]
    exact ⟨rfl, rfl, rfl, rfl, rfl⟩
  · obtain ⟨hp, hn⟩ := pendingPairs_of_ramp hs
    have := hk hs
    exact .inr ⟨by rw [h, raiseError_of_ok hr.1], by rw [hp, rampPairs_of_outOfRange hout], by omega⟩
  · obtain ⟨hp, hn⟩ := pendingPairs_of_ramp hs
    obtain ⟨hp', hn'⟩ := pendingPairs_of_rampNext (s := engineStep s) (kind := kind) (k := k) (r := r)
      (by rw [engineStep_cfg, h])
    have hN : s.cfg.fadeSize - k = s.cfg.fadeSize - (k + 1) + 1 := by have := hk hs; omega
    rw [hN] at hp hn
    rw [rampPairs_of_inRange hin] at hp
    simp only [engineStep_cfg, engineStep_mode] at hp' hn'
    refine .inl ⟨fadePair s.cfg kind s.mode r.trunc.toNat, by rw [h, push_outq], ?_, ?_, by rw [h, push_err],
      by rw [h, push_cause]⟩
    · rw [hp, hp']
    · rw [hn, hn']

/-! What the steps of a `drain` keep -/

/-- L as it will be once every pair queued and left to push is read. -/
def allPairs (s : State) : List Pair := s.pairsRead ++ s.outq ++ pendingPairs s

/-- From `s` to `t` no pair was lost, and either the error latch and the number of pairs that will be missing are as they
were, or pairs were missing and a RAMP_RANGE recorded it. -/
structure DrainKeeps (s t : State) : Prop where
  pairs : allPairs t = allPairs s
  latch : (t.err = s.err ∧ t.cause = s.cause
      ∧ (pendingPairs s).length + pairsLeft t = (pendingPairs t).length + pairsLeft s)
    ∨ (t.err = true ∧ t.cause = .rampRange ∧ (pendingPairs s).length < pairsLeft s
      ∧ (pendingPairs t).length = pairsLeft t)

theorem DrainKeeps.trans {s t u : State} (h : DrainKeeps s t) (h' : DrainKeeps t u) : DrainKeeps s u where
  pairs := h'.pairs.trans h.pairs
  latch := by
    rcases h.latch with ⟨he, hc, hn⟩ | ⟨he, hc, hs, hn⟩ <;> rcases h'.latch with ⟨he', hc', hn'⟩ | ⟨he', hc', hs', hn'⟩
    · exact .inl ⟨he'.trans he, hc'.trans hc, by omega⟩
    · exact .inr ⟨he', hc', by omega, hn'⟩
    · exact .inr ⟨he'.trans he, hc'.trans hc, hs, by omega⟩
    · omega

/-- A transition that leaves the engine, and L and the queue as one list. -/
theorem DrainKeeps.of_host {s t : State} (hb : SameBlock { s with outq := t.outq } t)
    (hp : t.pairsRead ++ t.outq = s.pairsRead ++ s.outq) : DrainKeeps s t := by
  have hpend : pendingPairs t = pendingPairs s := by simp only [pendingPairs, hb.engine, hb.cfg, hb.mode]
  have hleft : pairsLeft t = pairsLeft s := by simp only [pairsLeft, hb.engine, hb.cfg]
  exact ⟨by rw [allPairs, allPairs, hp, hpend], .inl ⟨hb.err, hb.cause, by rw [hpend, hleft]⟩⟩

theorem engineStep_drainKeeps {s : State} (hi : s.Inv) (hr : EngineReady s) : DrainKeeps s (engineStep s) := by
  rcases engineStep_pending hi hr with ⟨p, hq, hp, hn, he, hc⟩ | ⟨h, hp, hn⟩
  · exact ⟨by simp [allPairs, hq, hp], .inl ⟨he, hc, by rw [hp, hn, List.length_cons]; omega⟩⟩
  · rw [h]
    exact ⟨by rw [allPairs, allPairs, hp]; rfl, .inr ⟨rfl, rfl, by rw [hp]; exact hn, rfl⟩⟩

/-! The steps of a `drain` -/

/-- The host is in a round of `drain`, at its STATUS read or, with a pair queued, at its OUT read. -/
structure Draining (op : HostOp) (rest : List HostOp) (s : State) : Prop where
  inv     : s.Inv
  noTurns : s.turns = []
  program : s.program = op :: rest
  round   : op = .drain ∨ (op = .drainTake ∧ s.outq ≠ [])

/-- A bound on the steps a `drain` has to come: three for a pair left to push, two for a pair queued, and a STATUS read. -/
def drainBound (op : HostOp) (s : State) : Nat :=
  3 * pairsLeft s + 2 * s.outq.length + (if op = .drain then 1 else 0)

/-- A step of the engine goes on with the round, one step nearer to its end. -/
theorem engineStep_draining {op : HostOp} {rest : List HostOp} {s : State} (h : Draining op rest s)
    (hr : EngineReady s) :
    Draining op rest (engineStep s) ∧ drainBound op (engineStep s) < drainBound op s := by
  have hdraining (hq : s.outq ≠ [] → (engineStep s).outq ≠ []) : Draining op rest (engineStep s) :=
    ⟨engineStep_inv h.inv hr, by rw [engineStep_turns, h.noTurns], by rw [engineStep_program, h.program],
      h.round.imp_right (And.imp_right hq)⟩
  rcases engineStep_pending h.inv hr with ⟨p, hq, -, hn, -⟩ | ⟨heq, -, hn⟩
  · refine ⟨hdraining (by simp [hq]), ?_⟩
    rw [drainBound, drainBound, hq, hn, List.length_append, List.length_singleton]
    omega
  · refine ⟨hdraining fun hq => by simpa [heq] using hq, ?_⟩
    rw [drainBound, drainBound, heq, pairsLeft_of_idle rfl]
    simp only
    omega

theorem Draining.drainBound_pos {op : HostOp} {rest : List HostOp} {s : State} (h : Draining op rest s) :
    0 < drainBound op s := by
  rw [drainBound]
  rcases h.round with rfl | ⟨-, hq⟩
  · simp
  · have := List.length_pos_iff.2 hq
    omega

/-- What a step of a `drain` does: it ends it, or it goes on with an operation that has fewer steps to come. -/
def DrainStep (op : HostOp) (rest : List HostOp) (s t : State) : Prop :=
  DrainKeeps s t
    ∧ ((t.program = rest ∧ t.engine = .idle ∧ t.outq = [])
      ∨ ∃ op', Draining op' rest t ∧ drainBound op' t < drainBound op s)

/-- The STATUS read of a round, with the engine without a step: it goes to the OUT read, or ends the `drain`. -/
theorem drainStep_drainRound {rest : List HostOp} {s : State} (h : Draining .drain rest s) (hr : ¬ EngineReady s) :
    DrainStep .drain rest s (drainRound { s with program := rest }) := by
  have hframe (p : List HostOp) : SameBlock s { s with program := p } := by constructor <;> rfl
  rw [drainRound_eq]
  by_cases hq : s.outq = []
  · have hidle := idle_of_not_engineReady h.inv hr hq
    rw [if_neg (not_not.2 hq), if_neg (not_not.2 hidle)]
    exact ⟨.of_host (hframe rest) rfl, .inl ⟨rfl, hidle, hq⟩⟩
  · rw [if_pos hq]
    exact ⟨.of_host (hframe _) rfl, .inr ⟨.drainTake, ⟨(hframe _).inv h.inv, h.noTurns, rfl, .inr ⟨rfl, hq⟩⟩,
      Nat.lt_succ_self _⟩⟩

/-- The OUT read of a round moves the head of the queue to L and starts the next round. -/
theorem drainStep_drainTakeRound {rest : List HostOp} {s : State} (h : Draining .drainTake rest s) :
    DrainStep .drainTake rest s (drainTakeRound { s with program := rest }) := by
  obtain ⟨p, q, hpq⟩ : ∃ p q, s.outq = p :: q := List.exists_cons_of_ne_nil (by simpa using h.round)
  have hpop : SameBlock (pop s) (drainTakeRound { s with program := rest }) := by constructor <;> rfl
  refine ⟨.of_host (by constructor <;> rfl) ?pairs, .inr ⟨.drain, ⟨hpop.inv (pop_inv h.inv), h.noTurns, rfl, .inl rfl⟩,
    ?bound⟩⟩
  case pairs => simp [drainTakeRound_eq, hpq]
  case bound =>
    simp [drainBound, pairsLeft, drainTakeRound_eq, hpq]
    omega

theorem exists_drainStep {op : HostOp} {rest : List HostOp} {s : State} (h : Draining op rest s) :
    ∃ t, step s = .next t ∧ DrainStep op rest s t := by
  by_cases hr : EngineReady s
  · obtain ⟨hnext, hlt⟩ := engineStep_draining h hr
    exact ⟨_, step_of_engineReady h.inv.legal h.noTurns hr, engineStep_drainKeeps h.inv hr, .inr ⟨op, hnext, hlt⟩⟩
  · have hturn : hostTurn s = hostOp op { s with program := rest } := by simp only [hostTurn, h.program]
    rw [step_of_not_engineReady h.inv.legal h.noTurns hr, hturn]
    rcases h.round with rfl | ⟨rfl, -⟩
    · exact ⟨_, rfl, drainStep_drainRound h hr⟩
    · exact ⟨_, rfl, drainStep_drainTakeRound h⟩

/-- A `drain` ends within its bound, by induction on the bound. -/
theorem drain_ends {op : HostOp} {rest : List HostOp} {s : State} (h : Draining op rest s) :
    ∃ n t, n ≤ drainBound op s ∧ Host.Core.run Sys2Proof.core n s = .next t ∧ DrainKeeps s t ∧ t.program = rest
      ∧ t.engine = .idle ∧ t.outq = [] := by
  induction hb : drainBound op s using Nat.strong_induction_on generalizing op s with
  | _ b ih =>
    obtain ⟨t, hs, hkeep, hend | ⟨op', ht, hlt⟩⟩ := exists_drainStep h
    · exact ⟨1, t, hb ▸ h.drainBound_pos, run_succ hs, hkeep, hend⟩
    · obtain ⟨n, u, hn, hrun, hkeep', hend⟩ := ih _ (hb ▸ hlt) ht rfl
      exact ⟨n + 1, u, by omega, (run_succ hs).trans hrun, hkeep.trans hkeep', hend⟩

/-- Settles O43: `drain_ends`, where at the end no pair is queued or left to push, so that L is all that `allPairs` was. -/
theorem drainEmptiesTheBlock : Obligations.DrainEmptiesTheBlock := by
  intro s rest hi ht hp
  obtain ⟨n, t, hn, hrun, ⟨hpairs, hlatch⟩, hend, hidle, hq⟩ := drain_ends ⟨hi, ht, hp, .inl rfl⟩
  have hpend : pendingPairs t = [] := pendingPairs_of_idle hidle
  have hleft : pairsLeft t = 0 := pairsLeft_of_idle hidle
  refine ⟨n, t, hn, hrun, hend, hidle, hq, ?_, ?_⟩
  · simpa [allPairs, hq, hpend] using hpairs
  · rw [hpend, hleft, List.length_nil, Nat.zero_add, Nat.add_zero] at hlatch
    exact hlatch.imp_right fun ⟨he, hc, hlt, _⟩ => ⟨he, hc, hlt⟩

end Sys2Proof.Machine
end

section
/-! The quantizer (40_quantizer.md): the values and the laws of `Quantize`, the payload pair, the frame of the commands,
what an accepted QUANT writes, and the engine step that pushes its pair. -/

namespace Sys2Proof.Machine

open Sys2Proof

/-! The scaled sample (40_quantizer.md R71) -/

/-- On a sample's pattern, adding 32768 is flipping bit 15. -/
theorem scaledSample_s16 (p : Params) (imm : Half) :
    scaledSample p (s16 imm) = (imm ^^^ 0x8000#16).toNat * p.period / 65536 := by
  rw [scaledSample, s16_add_eq_xor, Int.toNat_natCast]

theorem scaledSample_mono (p : Params) {s1 s2 : Int} (h : s1 ≤ s2) : scaledSample p s1 ≤ scaledSample p s2 :=
  Nat.div_le_div_right (Nat.mul_le_mul_right _ (Int.toNat_le_toNat (by omega)))

/-- Silence scales to the middle of the period. -/
theorem scaledSample_zero (p : Params) : scaledSample p 0 = p.silence := by
  change 32768 * p.period / 65536 = p.period / 2
  omega

/-- The loudest sample misses PERIOD by less than one, because PERIOD is below 65536. -/
theorem scaledSample_top {p : Params} (h : p.Legal) : scaledSample p 32767 = p.period - 1 := by
  have hp : 10 ≤ p.period ∧ p.period ≤ 65535 := h
  change 65535 * p.period / 65536 = p.period - 1
  omega

/-- A bound on the scaled sample is one on the product, with no rounding. -/
theorem scaledSample_lt_iff (p : Params) {s : Int} (hs : -32768 ≤ s) (n : Nat) :
    scaledSample p s < n ↔ (s + 32768) * p.period < n * 65536 := by
  have hcast : ((s + 32768).toNat : Int) = s + 32768 := Int.toNat_of_nonneg (by omega)
  rw [scaledSample, Nat.div_lt_iff_lt_mul (by decide), ← Int.ofNat_lt]
  push_cast
  rw [← hcast, Int.toNat_natCast]

/-- 1 is taken by the samples that scale to it and by those that are forced to it. -/
theorem quantize_eq_one_iff {p : Params} (h : p.Legal) {s : Int} (hs : s ≤ 32767) :
    (quantize p s).toNat = 1 ↔ scaledSample p s < 2 := by
  rw [quantize_toNat h hs]
  split <;> omega

theorem quantize_mono {p : Params} (h : p.Legal) {s1 s2 : Int} (h12 : s1 ≤ s2) (h2 : s2 ≤ 32767) :
    (quantize p s1).toNat ≤ (quantize p s2).toNat := by
  have hle := scaledSample_mono p h12
  rw [quantize_toNat h (h12.trans h2), quantize_toNat h h2]
  split <;> split <;> omega

/-- A sample whose scaled value is not 0 is not forced. -/
theorem quantize_toNat_of_pos {p : Params} (h : p.Legal) {s : Int} (hs : s ≤ 32767) (hpos : 0 < scaledSample p s) :
    (quantize p s).toNat = scaledSample p s := by
  rw [quantize_toNat h hs, if_neg hpos.ne']

/-- Settles O16: `s16_add_eq_xor` gives the unsigned sample, and its product with PERIOD is at most 65535 times it. -/
theorem quantizeIsScaledSample : Obligations.QuantizeIsScaledSample := by
  intro p imm h
  refine ⟨s16_add_eq_xor imm, ?product, ?value⟩
  case product =>
    calc (imm ^^^ 0x8000#16).toNat * p.period
        ≤ 65535 * p.period := Nat.mul_le_mul_right _ (Nat.le_pred_of_lt (imm ^^^ 0x8000#16).isLt)
      _ < 2 ^ 32 := (period_bounds_of_legal h).2
  case value =>
    rw [quantize_toNat h (s16_range imm).2, scaledSample_s16]
    rfl

/-- Settles O17: the word range of a quantized sample. -/
theorem quantizeRange : Obligations.QuantizeRange :=
  fun _ _ h _ hs => quantize_wordInRange h hs

/-- Settles O18: the laws of the scaled sample, of which silence and the top are not forced; at PERIOD = 5668 the bounds
on the product are bounds on the sample. -/
theorem quantizeLaws : Obligations.QuantizeLaws := by
  intro p h
  obtain ⟨-, -, hsilence, -⟩ := Params.Legal.constants h
  have hp : 10 ≤ p.period := h.1
  have hone {s : Int} (h1 : -32768 ≤ s) (h2 : s ≤ 32767) :
      (quantize p s).toNat = 1 ↔ (s + 32768) * p.period < 2 * 65536 :=
    (quantize_eq_one_iff h h2).trans (scaledSample_lt_iff p h1 2)
  refine ⟨fun _ _ _ h12 h2 => quantize_mono h h12 h2, ?silence, ?top, fun _ => hone, ?default⟩
  case silence =>
    rw [quantize_toNat_of_pos h (by decide) (by rw [scaledSample_zero]; omega), scaledSample_zero]
  case top =>
    rw [quantize_toNat_of_pos h (by decide) (by rw [scaledSample_top h]; omega), scaledSample_top h]
  case default =>
    intro hd s h1 h2
    rw [hone h1 h2, ← Nat.lt_one_iff, scaledSample_lt_iff p h1, hd]
    omega

/-! The payload pair (40_quantizer.md R74) -/

/-- A word in [1, PERIOD-1] has its complement to PERIOD there too. -/
theorem payloadPair_range {p : Params} (h : p.Legal) {q : Half} (hq : WordInRange p q) (m : Mode) :
    PairInRange p (payloadPair p m q) := by
  have hp : 10 ≤ p.period ∧ p.period ≤ 65535 := h
  have hq' : 1 ≤ q.toNat ∧ q.toNat ≤ p.period - 1 := hq
  have hrest : WordInRange p (half (p.period - q.toNat)) := by
    rw [WordInRange, half_toNat_of_lt (by omega)]
    omega
  cases m with
  | dualPhase => exact ⟨hq, hrest⟩
  | dualChannel => exact ⟨hq, hq⟩

/-- Settles O19: the pairs are the definition's, and `payloadPair_range` bounds their words. -/
theorem payloadPairWords : Obligations.PayloadPairWords :=
  fun _ _ h h1 h2 => ⟨rfl, rfl, payloadPair_range h ⟨h1, h2⟩⟩

/-! The frame of the commands (40_quantizer.md R75, 41_ramp.md R86, R87, 60_exceptions.md R104) -/

/-- Only FADEOUT has an error of its own, NO_SAMPLE (60_exceptions.md R101). -/
theorem accepted_latch {i : Instr} (h : i ≠ .fadeout) (s : State) :
    (accepted i s).err = s.err ∧ (accepted i s).cause = s.cause := by
  cases i with
  | quant imm => exact ⟨acceptQuant_err _ s, acceptQuant_cause _ s⟩
  | fadein imm => exact ⟨startRamp_err _ _ _ s, startRamp_cause _ _ _ s⟩
  | fadeout => exact absurd rfl h

/-- While the engine is busy a command is ignored or raises CMD_BUSY (60_exceptions.md R105, 30_encoding.md R69). -/
theorem exec_of_busy {i : Instr} {s t : State} (h : exec i s = .next t) (hb : s.engine ≠ .idle) :
    t = s ∨ t = raiseError .cmdBusy s := by
  obtain ⟨-, ⟨-, ht⟩ | ⟨-, -, ht⟩ | ⟨-, hi, -⟩⟩ := exec_cases h
  · exact .inl ht
  · exact .inr ht
  · exact absurd hi hb

/-- While the engine is idle a command is ignored or accepted (60_exceptions.md R105, 30_encoding.md R69). -/
theorem exec_of_idle {i : Instr} {s t : State} (h : exec i s = .next t) (hi : s.engine = .idle) :
    t = s ∨ t = accepted i s := by
  obtain ⟨-, ⟨-, ht⟩ | ⟨-, hb, -⟩ | ⟨-, -, ht⟩⟩ := exec_cases h
  · exact .inl ht
  · exact absurd hi hb
  · exact .inr ht

/-- What CMD_BUSY and the acceptance of a command both leave, the command leaves. -/
theorem exec_keeps {i : Instr} {s t : State} (h : exec i s = .next t) {α : Type} (f : State → α)
    (hbusy : f (raiseError .cmdBusy s) = f s) (haccepted : f (accepted i s) = f s) : f t = f s := by
  obtain ⟨-, ⟨-, rfl⟩ | ⟨-, -, rfl⟩ | ⟨-, -, rfl⟩⟩ := exec_cases h
  · rfl
  · exact hbusy
  · exact haccepted

/-- Settles O49: `exec_keeps` for each field; the last sample and the error latch by what their hypotheses leave possible. -/
theorem commandFrame : Obligations.CommandFrame := by
  intro i s t h
  refine ⟨exec_keeps h State.mode (raiseError_mode _ s) (accepted_mode i s),
    exec_keeps h State.outq (raiseError_outq _ s) (accepted_outq i s),
    exec_keeps h State.cfg (raiseError_cfg _ s) (accepted_cfg i s),
    exec_keeps h State.turns (raiseError_turns _ s) (accepted_turns i s),
    exec_keeps h State.program (raiseError_program _ s) (accepted_program i s),
    exec_keeps h State.reads (raiseError_reads _ s) (accepted_reads i s),
    exec_keeps h State.pairsRead (raiseError_pairsRead _ s) (accepted_pairsRead i s),
    fun hq => ?sample, fun hi hf => ?latch, fun hb => ?busy⟩
  case sample =>
    obtain ⟨hlastq, hlastqV⟩ := accepted_lastq hq s
    exact ⟨exec_keeps h State.lastq (raiseError_lastq _ s) hlastq,
      exec_keeps h State.lastqV (raiseError_lastqV _ s) hlastqV⟩
  case latch =>
    rcases exec_of_idle h hi with rfl | rfl
    · exact ⟨rfl, rfl⟩
    · exact accepted_latch hf s
  case busy =>
    rcases exec_of_busy h hb with rfl | rfl
    · exact ⟨rfl, rfl⟩
    · exact ⟨raiseError_lastq _ s, raiseError_lastqV _ s⟩

/-! QUANT and the engine step of its pair (40_quantizer.md R75, R76) -/

/-- A command with no error and the engine idle is accepted (30_encoding.md R69). -/
theorem exec_of_ready {s : State} (hl : s.cfg.Legal) (he : s.err = false) (hi : s.engine = .idle) (i : Instr) :
    exec i s = .next (accepted i s) := by
  rw [exec_eq_whenReady, whenReady_of_ready hl he hi]

/-- Settles O20: QUANT is accepted, with the quantized value as `q` and the pair of the mode. -/
theorem quantCompletes : Obligations.QuantCompletes := by
  intro imm s hl he hi
  refine ⟨quantize s.cfg (s16 imm), quantize_toNat hl (s16_range imm).2, ?_⟩
  rw [exec_of_ready hl he hi, accepted, acceptQuant]
  cases s.mode <;> rfl

/-- The engine's turn, where it has a step, is that step (10_state.md R33). -/
theorem step_engine_of_ready {s : State} (hl : s.cfg.Legal) (hr : EngineReady s) :
    step (withTurn .engine s) = .next (engineStep s) := by
  rw [step_withTurn hl, turn, engineTurn, if_pos hr]

/-- Settles O21: an engine that holds a pair is not idle, so with no error and room its turn is the push of that pair. -/
theorem engineEmitsTheHeldPair : Obligations.EngineEmitsTheHeldPair := by
  intro s p hl he hp hroom
  have hready : EngineReady s := ⟨he, by simp [hp], hroom⟩
  rw [step_engine_of_ready hl hready, engineStep, hp]
  rfl

end Sys2Proof.Machine
end

section
/-! Binary32 arithmetic (41_ramp.md R80): one rounding of a signed value, from which follow the nearest-even laws of
subtraction and division, the exactness of conversions and of subnormal differences, and that a ramp is monotone. -/

namespace Sys2Proof.Machine

open Sys2Proof

/-! One rounding of a signed value -/

/-- A sign that a value may be rounded with: its own, or either for 0. -/
abbrev SignOf (sign : Bool) (v : Int) : Prop := (sign = true → v ≤ 0) ∧ (sign = false → 0 ≤ v)

theorem gap_le_units_gap (x : Binary32) (den : Nat) (v : Int) :
    gap (x.mag * den) v.natAbs ≤ (x.units * den - v).natAbs := by
  rw [units_eq, gap, Nat.cast_mul]
  generalize hm : (x.mag : Int) * den = m
  have : 0 ≤ m := by rw [← hm]; positivity
  split
  · rw [neg_mul, hm]
    omega
  · rw [hm]
    omega

/-- Between values of one sign the distance is that of the magnitudes. -/
theorem units_gap_of_sign {x : Binary32} {v : Int} (h : SignOf x.sign v) (den : Nat) :
    (x.units * den - v).natAbs = gap (x.mag * den) v.natAbs := by
  obtain ⟨hneg, hpos⟩ := h
  rw [units_eq, gap, Nat.cast_mul]
  generalize hm : (x.mag : Int) * den = m
  have : 0 ≤ m := by rw [← hm]; positivity
  cases hs : x.sign with
  | true =>
    have := hneg hs
    rw [if_pos rfl, neg_mul, hm]
    omega
  | false =>
    have := hpos hs
    rw [if_neg (by decide), hm]
    omega

/-- Values of one magnitude are equal or opposite. -/
theorem units_eq_or_neg {x c : Binary32} (h : c.mag = x.mag) : c.units = x.units ∨ c.units = -x.units := by
  rw [units_eq, units_eq, h]
  cases c.sign <;> cases x.sign <;> simp

theorem round_zero_mag (sign : Bool) {den : Nat} (h : 0 < den) : (Binary32.round sign 0 den).mag = 0 := by
  have hzero := nearestEven_mul 0 (Nat.mul_pos h (Nat.two_pow_pos (Binary32.lastPlace 0 den)))
  rw [Nat.zero_mul] at hzero
  rw [round_mag h (Nat.zero_le _), hzero, Nat.zero_mul]

/-- A value of the same magnitude as a rounding and as near is the rounding: an opposite one is as near to 0 only, and 0
rounds to a zero. -/
theorem eq_round_units_of_mag_eq {v : Int} {den : Nat} (h : 0 < den) (sign : Bool) {c : Binary32}
    (hm : c.mag = (Binary32.round sign v.natAbs den).mag)
    (heq : ((Binary32.round sign v.natAbs den).units * den - v).natAbs = (c.units * den - v).natAbs) :
    c.units = (Binary32.round sign v.natAbs den).units := by
  rcases units_eq_or_neg hm with hsame | hopp
  · exact hsame
  · by_cases hv : v = 0
    · subst hv
      rw [Int.natAbs_zero, round_zero_mag sign h] at hm
      rw [units_eq, units_eq, Int.natAbs_zero, hm, round_zero_mag sign h]
      simp
    · have hzero : (Binary32.round sign v.natAbs den).units * den = 0 := by
        rw [hopp, neg_mul] at heq
        omega
      have hx := (mul_eq_zero.1 hzero).resolve_right (by omega)
      rw [hopp, hx, neg_zero]

/-- No binary32 value is nearer to a value than its rounding, and of two nearest ones the rounding is the one with an even
last bit (41_ramp.md R80). -/
theorem round_units_nearest {v : Int} {den : Nat} (h : 0 < den) (hr : v.natAbs ≤ (2 ^ 24 - 1) * 2 ^ 253 * den)
    {sign : Bool} (hs : SignOf sign v) (c : Binary32) :
    ((Binary32.round sign v.natAbs den).units * den - v).natAbs ≤ (c.units * den - v).natAbs
      ∧ (((Binary32.round sign v.natAbs den).units * den - v).natAbs = (c.units * den - v).natAbs →
        c.units ≠ (Binary32.round sign v.natAbs den).units →
        (Binary32.round sign v.natAbs den).frac.getLsbD 0 = false) := by
  obtain ⟨hnear, heven⟩ := round_nearest h hr sign c
  have hc := gap_le_units_gap c den v
  have hgap := units_gap_of_sign (x := Binary32.round sign v.natAbs den) hs den
  refine ⟨hgap ▸ hnear.trans hc, fun heq hne => heven (by omega) fun hm => ?_⟩
  exact hne (eq_round_units_of_mag_eq h sign hm heq)

/-- A magnitude with a last place far below the top is within the finite range. -/
theorem finite_of_lt {num den e : Nat} (h : num < 2 ^ (24 + e) * den) (he : e ≤ 229) :
    num ≤ (2 ^ 24 - 1) * 2 ^ 253 * den :=
  calc num ≤ 2 ^ (24 + e) * den := h.le
    _ ≤ 2 ^ 253 * den := Nat.mul_le_mul_right den (Nat.pow_le_pow_right (by decide) (by omega))
    _ ≤ (2 ^ 24 - 1) * 2 ^ 253 * den := Nat.mul_le_mul_right den (by decide)

/-- A rounding is off by at most half of a last place that the value keeps. -/
theorem round_units_gap {v : Int} {den e : Nat} (h : 0 < den) (hv : v.natAbs < 2 ^ (24 + e) * den) (he : e ≤ 229)
    {sign : Bool} (hs : SignOf sign v) :
    2 * ((Binary32.round sign v.natAbs den).units * den - v).natAbs ≤ den * 2 ^ e := by
  rw [units_gap_of_sign (x := Binary32.round sign v.natAbs den) hs den]
  calc 2 * gap ((Binary32.round sign v.natAbs den).mag * den) v.natAbs
      ≤ den * 2 ^ Binary32.lastPlace v.natAbs den := round_gap h (finite_of_lt hv he) sign
    _ ≤ den * 2 ^ e := Nat.mul_le_mul_left den (Nat.pow_le_pow_right (by decide) (lastPlace_le h hv))

/-! Conversion and subtraction -/

theorem toRat_of_units {x : Binary32} {i : Int} (h : x.units = i * 2 ^ 149) : x.toRat = i := by
  rw [Binary32.toRat, h]
  push_cast
  exact mul_div_cancel_right₀ _ (by norm_num)

/-- Settles O27: an integer below 2^24 is a whole number of 2^149 units, which truncation divides out again. -/
theorem fromIntIsExact : Obligations.FromIntIsExact := by
  intro i h
  have hu := fromInt_units h
  refine ⟨toRat_of_units hu, ?_⟩
  rw [Binary32.trunc, hu]
  exact Int.mul_tdiv_cancel _ (by decide)

/-- The sign that a difference is given, one that its value may have. -/
def subSign (a b : Binary32) : Bool :=
  if a.units - b.units = 0 then a.sign && !b.sign else decide (a.units - b.units < 0)

theorem sub_eq_round (a b : Binary32) : Binary32.sub a b = Binary32.round (subSign a b) (a.units - b.units).natAbs 1 := rfl

theorem subSign_signOf (a b : Binary32) : SignOf (subSign a b) (a.units - b.units) := by
  unfold subSign
  split
  · exact ⟨fun _ => by omega, fun _ => by omega⟩
  · exact ⟨fun h => (of_decide_eq_true h).le, fun h => not_lt.1 (of_decide_eq_false h)⟩

/-- Settles O28: a difference is the rounding of its exact value, a whole number of units. -/
theorem subtractionRoundsToNearestEven : Obligations.SubtractionRoundsToNearestEven := by
  intro a b c hr
  have h := round_units_nearest Nat.one_pos (by omega) (subSign_signOf a b) c
  simpa only [sub_eq_round, Nat.cast_one, mul_one] using h

/-- A difference is off by at most half of a last place that it keeps (41_ramp.md R80). -/
theorem sub_units_gap_of_lt {a b : Binary32} {e : Nat} (h : (a.units - b.units).natAbs < 2 ^ (24 + e)) (he : e ≤ 229) :
    2 * ((Binary32.sub a b).units - (a.units - b.units)).natAbs ≤ 2 ^ e := by
  have h1 : (a.units - b.units).natAbs < 2 ^ (24 + e) * 1 := by rwa [Nat.mul_one]
  have hfinite := finite_of_lt h1 he
  rw [Nat.mul_one] at hfinite
  exact (sub_units_gap hfinite).trans (Nat.pow_le_pow_right (by decide) (lastPlace_le Nat.one_pos h1))

/-- Settles O30: the last place that a subnormal difference keeps is one unit, and half of it is less than any error. -/
theorem subnormalDifferenceIsExact : Obligations.SubnormalDifferenceIsExact := by
  intro a b h
  have hgap := sub_units_gap_of_lt (e := 0) (h.trans (by decide)) (Nat.zero_le _)
  have hu : (Binary32.sub a b).units = a.units - b.units := by omega
  rw [Binary32.toRat, Binary32.toRat, Binary32.toRat, hu, Int.cast_sub, sub_div]

theorem trunc_mono {x y : Binary32} (h : x.units ≤ y.units) : x.trunc ≤ y.trunc :=
  Int.tdiv_le_tdiv (by decide) h

/-- Settles O31: the accumulator is a binary32 value on one side of the difference, so the nearest one is not beyond it. -/
theorem binaryRampIsMonotone : Obligations.BinaryRampIsMonotone := by
  intro acc d hr
  have hnear := (subtractionRoundsToNearestEven acc d acc hr).1
  refine ⟨fun hd => ?_, fun hd => ?_⟩
  · have h : (Binary32.sub acc d).units ≤ acc.units := by omega
    exact ⟨h, trunc_mono h⟩
  · have h : acc.units ≤ (Binary32.sub acc d).units := by omega
    exact ⟨h, trunc_mono h⟩

/-! Division -/

/-- The quotient of `a` by `b`, times the magnitude of the divisor, in units. -/
def divValue (a b : Binary32) : Int := (if b.sign then -a.units else a.units) * 2 ^ 149

theorem divValue_natAbs (a b : Binary32) : (divValue a b).natAbs = a.mag * 2 ^ 149 := by
  rw [divValue, Int.natAbs_mul, units_eq]
  cases b.sign <;> cases a.sign <;> simp

theorem div_eq_round (a b : Binary32) :
    Binary32.div a b = Binary32.round (a.sign != b.sign) (divValue a b).natAbs b.mag := by
  rw [divValue_natAbs]
  rfl

/-- The sign of a quotient is that of the signs. -/
theorem divValue_signOf (a b : Binary32) : SignOf (a.sign != b.sign) (divValue a b) := by
  rw [divValue, units_eq]
  cases b.sign <;> cases a.sign <;> simp [SignOf]

/-- The distance to the quotient, told with the sign of the divisor or without. -/
theorem units_gap_divisor (x a b : Binary32) :
    (x.units * b.units - a.units * 2 ^ 149).natAbs = (x.units * b.mag - divValue a b).natAbs := by
  rw [divValue, units_eq b]
  cases b.sign with
  | true => simp only [if_true, mul_neg, neg_mul]; omega
  | false => rfl

/-- Settles O29: a quotient is the rounding of its exact value, over the magnitude of the divisor. -/
theorem divisionRoundsToNearestEven : Obligations.DivisionRoundsToNearestEven := by
  intro a b c hb hr
  have h := round_units_nearest (Nat.pos_of_ne_zero hb) (by rwa [divValue_natAbs]) (divValue_signOf a b) c
  rw [← div_eq_round] at h
  simpa only [units_gap_divisor] using h

end Sys2Proof.Machine
end

section
/-! A ramp of either arithmetic (41_ramp.md R82 to R88): how the fade commands start it, its first value, what one step of
the engine does, and what a run of such steps pushes. -/

namespace Sys2Proof.Machine

open Sys2Proof

/-! The start of a ramp (41_ramp.md R82, R83) -/

/-- Settles O22: an accepted FADEIN is `startRamp` with the endpoints of R81, and so is a FADEOUT with a sample. -/
theorem fadeCommandsStartTheirRamps : Obligations.FadeCommandsStartTheirRamps := by
  intro imm s hl he hi
  refine ⟨?fadein, fun hv => ?fadeout⟩
  case fadein =>
    rw [exec_of_ready hl he hi, accepted, acceptFadeIn, startRamp, rampInit]
    cases s.cfg.rampArith <;> rfl
  case fadeout =>
    rw [exec_of_ready hl he hi, accepted, acceptFadeOut_of_sample hv, startRamp, rampInit]
    cases s.cfg.rampArith <;> rfl

theorem truncRat_intCast (i : Int) : truncRat i = i := by
  rw [truncRat, Rat.num_intCast, Rat.den_intCast, Nat.cast_one, Int.tdiv_one]

/-- Settles O26: no step has been subtracted, and the conversion of the start is exact in either arithmetic. -/
theorem rampStartsAtItsStart : Obligations.RampStartsAtItsStart := by
  intro p start stop h
  unfold rampInit
  cases p.rampArith with
  | binary32 => exact (fromIntIsExact start (by omega)).2
  | exact => exact truncRat_intCast start

/-! One step of the engine in a ramp (41_ramp.md R84, R85) -/

theorem engineReady_of_ramp {s : State} {kind : RampKind} {k : Nat} {r : RampAcc} (he : s.err = false)
    (hs : s.engine = .ramp kind k r) (hroom : s.outq.length < s.cfg.outDepth) : EngineReady s :=
  ⟨he, by simp [hs], hroom⟩

theorem engineStep_of_ramp {s : State} {kind : RampKind} {k : Nat} {r : RampAcc} (hs : s.engine = .ramp kind k r) :
    engineStep s = rampStep kind k r s := by
  simp only [engineStep, hs]

/-- A value out of range records RAMP_RANGE (41_ramp.md R84). -/
theorem rampStep_of_outOfRange {s : State} {r : RampAcc} (he : s.err = false) (h : RampOutOfRange s.cfg r.trunc)
    (kind : RampKind) (k : Nat) :
    rampStep kind k r s = { s with err := true, cause := .rampRange, engine := .idle } := by
  rw [rampStep, if_pos h, raiseError_of_ok he]

/-- A value in range is pushed as a fade pair (41_ramp.md R84). -/
theorem rampStep_of_inRange {s : State} {r : RampAcc} (h : ¬ RampOutOfRange s.cfg r.trunc) (kind : RampKind) (k : Nat) :
    rampStep kind k r s
      = { push (fadePair s.cfg kind s.mode r.trunc.toNat) s with engine := rampNext s.cfg kind k r } := by
  rw [rampStep, if_neg h]

/-- Settles O24: the engine's turn is `rampStep`, whose range check is the condition of R84. -/
theorem engineRampStep : Obligations.EngineRampStep := by
  intro s kind k r hl he hs hroom
  rw [step_engine_of_ready hl (engineReady_of_ramp he hs hroom), engineStep_of_ramp hs]
  by_cases hv : RampOutOfRange s.cfg r.trunc
  · rw [rampStep_of_outOfRange he hv]
    cases r <;> exact congrArg _ (if_pos hv).symm
  · rw [rampStep_of_inRange hv]
    cases s with | mk mode =>
    cases r <;> refine congrArg _ (Eq.trans ?_ (if_neg hv).symm) <;> cases mode <;> cases kind <;> rfl

/-! A run of the engine's turns in a ramp (41_ramp.md R84, 60_exceptions.md R107) -/

/-- The next `n` turns are the engine's. -/
def EngineTurns (n : Nat) (rest : List Turn) (s : State) : Prop := s.turns = List.replicate n .engine ++ rest

theorem step_of_engineTurns {s : State} {n : Nat} {rest : List Turn} (hl : s.cfg.Legal)
    (ht : EngineTurns (n + 1) rest s) :
    step s = .next (engineTurn (takeTurn s)) ∧ EngineTurns n rest (takeTurn s) := by
  rw [EngineTurns, List.replicate_succ, List.cons_append] at ht
  constructor
  · rw [step_of_legal hl, nextTurn, ht]
    rfl
  · rw [EngineTurns, takeTurn, ht, List.tail_cons]

/-- An engine without a step lets its turns pass (10_state.md R33). -/
theorem run_of_not_engineReady {n : Nat} {rest : List Turn} {s : State} (hl : s.cfg.Legal) (hr : ¬ EngineReady s)
    (ht : EngineTurns n rest s) : Host.Core.run Sys2Proof.core n s = .next { s with turns := rest } := by
  induction n generalizing s with
  | zero =>
    rw [EngineTurns, List.replicate_zero, List.nil_append] at ht
    rw [← ht]
    rfl
  | succ n ih =>
    obtain ⟨hs, ht'⟩ := step_of_engineTurns hl ht
    have hr' : ¬ EngineReady (takeTurn s) := hr
    rw [engineTurn, if_neg hr'] at hs
    rw [run_succ hs, ih (s := takeTurn s) hl hr' ht']
    rfl

/-- The engine is idle, or in a ramp with steps to come. -/
def IdleOrRamp (s : State) : Prop :=
  s.engine = .idle ∨ ∃ kind k r, s.engine = .ramp kind k r ∧ k < s.cfg.fadeSize

/-- From `s` to `t` the ramp in progress has ended: its pairs are queued after those that were there, and they are all, or
a RAMP_RANGE records that they are not. -/
structure RampEnded (s t : State) : Prop where
  outq   : t.outq = s.outq ++ pendingPairs s
  engine : t.engine = .idle
  lastq  : t.lastq = s.lastq
  latch  : (t.err = s.err ∧ (pendingPairs s).length = pairsLeft s)
    ∨ (t.err = true ∧ t.cause = .rampRange ∧ (pendingPairs s).length < pairsLeft s)

/-- What is said of the end of a ramp is said of the block without its turns. -/
theorem RampEnded.congr_turns {s t : State} {ts us : List Turn} (h : RampEnded { s with turns := ts } t) :
    RampEnded s { t with turns := us } :=
  ⟨h.outq, h.engine, h.lastq, h.latch⟩

theorem rampEnded_of_idle {s : State} (h : s.engine = .idle) : RampEnded s s where
  outq := by rw [pendingPairs_of_idle h, List.append_nil]
  engine := h
  lastq := rfl
  latch := .inl ⟨rfl, by rw [pendingPairs_of_idle h, pairsLeft_of_idle h, List.length_nil]⟩

/-- A value out of range ends the ramp with pairs missing. -/
theorem rampEnded_of_outOfRange {s : State} {kind : RampKind} {k : Nat} {r : RampAcc} (he : s.err = false)
    (hs : s.engine = .ramp kind k r) (hk : k < s.cfg.fadeSize) (hv : RampOutOfRange s.cfg r.trunc) :
    RampEnded s (engineStep s) := by
  obtain ⟨hp, hn⟩ := pendingPairs_of_ramp hs
  rw [rampPairs_of_outOfRange hv] at hp
  rw [engineStep_of_ramp hs, rampStep_of_outOfRange he hv]
  exact ⟨by rw [hp, List.append_nil], rfl, rfl, .inr ⟨rfl, rfl, by rw [hp, hn, List.length_nil]; omega⟩⟩

/-- A value in range is the first of the pairs left, and the ramp goes on with the others. -/
theorem pending_of_inRange {s : State} {kind : RampKind} {k : Nat} {r : RampAcc}
    (hs : s.engine = .ramp kind k r) (hk : k < s.cfg.fadeSize) (hv : ¬ RampOutOfRange s.cfg r.trunc) :
    IdleOrRamp (engineStep s) ∧ (engineStep s).err = s.err ∧ pairsLeft s = pairsLeft (engineStep s) + 1
      ∧ ∃ p, (engineStep s).outq = s.outq ++ [p] ∧ pendingPairs s = p :: pendingPairs (engineStep s) := by
  have h : engineStep s = _ := (engineStep_of_ramp hs).trans (rampStep_of_inRange hv kind k)
  obtain ⟨hp, hn⟩ := pendingPairs_of_ramp hs
  obtain ⟨hp', hn'⟩ := pendingPairs_of_rampNext (s := engineStep s) (kind := kind) (k := k) (r := r)
    (by rw [engineStep_cfg, h])
  simp only [engineStep_cfg, engineStep_mode] at hp' hn'
  have hN : s.cfg.fadeSize - k = s.cfg.fadeSize - (k + 1) + 1 := by omega
  rw [hN, ← hn'] at hn
  rw [hN, rampPairs_of_inRange hv, ← hp'] at hp
  refine ⟨?going, by rw [h, push_err], hn, fadePair s.cfg kind s.mode r.trunc.toNat, by rw [h, push_outq], hp⟩
  rw [IdleOrRamp, engineStep_cfg, h]
  by_cases hlast : k + 1 = s.cfg.fadeSize
  · exact .inl (if_pos hlast)
  · exact .inr ⟨kind, k + 1, r.advance, if_neg hlast, by omega⟩

/-- The pairs of a ramp are those of its first step and of the rest. -/
theorem RampEnded.of_inRange {s t : State} {p : Pair} (h : RampEnded (engineStep s) t)
    (he : (engineStep s).err = s.err) (hn : pairsLeft s = pairsLeft (engineStep s) + 1)
    (hq : (engineStep s).outq = s.outq ++ [p]) (hp : pendingPairs s = p :: pendingPairs (engineStep s)) :
    RampEnded s t where
  outq := by rw [h.outq, hq, hp, List.append_assoc, List.singleton_append]
  engine := h.engine
  lastq := h.lastq.trans (engineStep_lastq s)
  latch := by
    rw [hp, hn, List.length_cons, Nat.add_right_cancel_iff, Nat.add_lt_add_iff_right, ← he]
    exact h.latch

/-- As many turns of the engine as it has pairs left to push, with room for them, end the ramp: by induction on the pairs
left. -/
theorem ramp_run_ends {rest : List Turn} {s : State} (hl : s.cfg.Legal) (he : s.err = false) (hs : IdleOrRamp s)
    (hroom : s.outq.length + pairsLeft s ≤ s.cfg.outDepth) (ht : EngineTurns (pairsLeft s) rest s) :
    ∃ t, Host.Core.run Sys2Proof.core (pairsLeft s) s = .next t ∧ t.turns = rest ∧ RampEnded s t := by
  induction hn : pairsLeft s generalizing s with
  | zero =>
    have hidle : s.engine = .idle := by
      rcases hs with hs | ⟨kind, k, r, hs, hk⟩
      · exact hs
      · have := (pendingPairs_of_ramp hs).2
        omega
    refine ⟨s, rfl, ?_, rampEnded_of_idle hidle⟩
    rwa [EngineTurns, hn, List.replicate_zero, List.nil_append] at ht
  | succ n ih =>
    rcases hs with hs | ⟨kind, k, r, hs, hk⟩
    · rw [pairsLeft_of_idle hs] at hn
      cases hn
    · rw [hn] at ht hroom
      obtain ⟨hstep, ht'⟩ := step_of_engineTurns hl ht
      have hready : EngineReady (takeTurn s) := engineReady_of_ramp he hs (by simp only [takeTurn_outq, takeTurn_cfg]; omega)
      rw [engineTurn, if_pos hready] at hstep
      rw [run_succ hstep]
      by_cases hv : RampOutOfRange s.cfg r.trunc
      · have hend := rampEnded_of_outOfRange (s := takeTurn s) he hs hk hv
        refine ⟨_, run_of_not_engineReady (by simpa using hl) (fun h => h.2.1 hend.engine)
          (by rwa [EngineTurns, engineStep_turns]), rfl, hend.congr_turns⟩
      · obtain ⟨hs', he', hn', p, hq, hp⟩ := pending_of_inRange (s := takeTurn s) hs hk hv
        have hleft : pairsLeft (engineStep (takeTurn s)) = n := by
          have : pairsLeft (takeTurn s) = pairsLeft s := rfl
          omega
        obtain ⟨t, hrun, htt, hend⟩ := ih (s := engineStep (takeTurn s)) (by simpa using hl) (he'.trans he) hs'
          (by rw [hq, hleft]; simp; omega) (by rwa [hleft, EngineTurns, engineStep_turns]) hleft
        exact ⟨t, hrun, htt, (hend.of_inRange he' hn' hq hp).congr_turns⟩

/-- Settles O25: `ramp_run_ends`, with the pairs left to push of a ramp written out. -/
theorem rampPushesNPairs : Obligations.RampPushesNPairs := by
  intro s kind k r ts hl he hs hk hroom ht
  obtain ⟨hp, hn⟩ := pendingPairs_of_ramp hs
  rw [← hn] at hroom ht ⊢
  obtain ⟨t, hrun, htt, hq, hidle, hlastq, hlatch⟩ := ramp_run_ends hl he (.inr ⟨kind, k, r, hs, hk⟩) hroom ht
  rw [he] at hlatch
  rw [hn, ← hp]
  exact ⟨t, _, rfl, hn ▸ hrun, hq, hidle, htt, hlastq, hn ▸ hlatch⟩

end Sys2Proof.Machine
end

section
/-! Ramps that keep to a track (41_ramp.md R88). A relation between the endpoints, the step `k` and the accumulator that
holds at the start, is kept by each subtraction and puts the value in [1, PERIOD-1] is kept by every step of the machine,
and with it every queued word stays in that range and no RAMP_RANGE is recorded. -/

namespace Sys2Proof.Machine

open Sys2Proof

/-! The track of the ramp in progress -/

/-- The endpoints of a ramp of either kind: SILENCE and a word in [1, PERIOD-1] (41_ramp.md R81). -/
def FadeEndpoints (p : Params) (start stop : Nat) : Prop :=
  (start = p.silence ∧ 1 ≤ stop ∧ stop ≤ p.period - 1) ∨ (1 ≤ start ∧ start ≤ p.period - 1 ∧ stop = p.silence)

/-- Both endpoints lie in [1, PERIOD-1], as SILENCE does. -/
theorem FadeEndpoints.range {p : Params} {start stop : Nat} (hl : p.Legal) (h : FadeEndpoints p start stop) :
    1 ≤ start ∧ start ≤ p.period - 1 ∧ 1 ≤ stop ∧ stop ≤ p.period - 1 := by
  obtain ⟨-, -, h1, h2⟩ := Params.Legal.constants hl
  rcases h with ⟨rfl, h3, h4⟩ | ⟨h3, h4, rfl⟩
  · exact ⟨h1, h2, h3, h4⟩
  · exact ⟨h3, h4, h1, h2⟩

/-- The last sample of a fade-out is a word in [1, PERIOD-1], so the endpoints of R81 are of that form. -/
theorem RampEnds.fadeEndpoints {s : State} {kind : RampKind} {start stop : Nat} (hi : s.Inv)
    (hk : kind = .fadeOut → s.lastqV = true) (h : RampEnds s kind start stop) : FadeEndpoints s.cfg start stop := by
  cases kind with
  | fadeIn => exact .inl h
  | fadeOut =>
    obtain ⟨rfl, rfl⟩ := h
    obtain ⟨h1, h2⟩ := hi.sample (hk rfl)
    exact .inr ⟨h1, h2, rfl⟩

/-- What a ramp keeps: from a start to an end, after `k` steps, the accumulator. -/
abbrev Track := Params → Nat → Nat → Nat → RampAcc → Prop

/-- The ramp in progress, if there is one, is on the track between endpoints of its kind. -/
def OnTrack (T : Track) (s : State) : Prop :=
  match s.engine with
  | .ramp kind k r => ∃ start stop, RampEnds s kind start stop ∧ T s.cfg start stop k r
  | _ => True

/-- The laws of a track: a ramp starts on it, a subtraction stays on it, and its values are words in [1, PERIOD-1]. -/
structure TrackLaws (T : Track) (p : Params) : Prop where
  start : ∀ {a b : Nat}, FadeEndpoints p a b → T p a b 0 (rampInit p a b)
  next  : ∀ {a b k : Nat} {r : RampAcc}, FadeEndpoints p a b → k < p.fadeSize → T p a b k r →
    T p a b (k + 1) r.advance
  value : ∀ {a b k : Nat} {r : RampAcc}, FadeEndpoints p a b → k < p.fadeSize → T p a b k r →
    1 ≤ r.trunc ∧ r.trunc ≤ (p.period : Int) - 1

section OnTrack

variable {T : Track} {s t : State}

theorem onTrack_of_idle (h : s.engine = .idle) : OnTrack T s := by simp only [OnTrack, h]

theorem onTrack_of_emit1 {p : Pair} (h : s.engine = .emit1 p) : OnTrack T s := by simp only [OnTrack, h]

theorem onTrack_ramp_iff {kind : RampKind} {k : Nat} {r : RampAcc} (h : s.engine = .ramp kind k r) :
    OnTrack T s ↔ ∃ start stop, RampEnds s kind start stop ∧ T s.cfg start stop k r := by
  simp only [OnTrack, h]

theorem RampEnds.congr {kind : RampKind} {start stop : Nat} (hq : t.lastq = s.lastq) (hc : t.cfg = s.cfg)
    (h : RampEnds s kind start stop) : RampEnds t kind start stop := by
  simpa only [RampEnds, hq, hc] using h

/-- The track is a matter of the engine, the last sample and the parameter set. -/
theorem OnTrack.congr (he : t.engine = s.engine) (hq : t.lastq = s.lastq) (hc : t.cfg = s.cfg) (h : OnTrack T s) :
    OnTrack T t := by
  simpa only [OnTrack, RampEnds, he, hq, hc] using h

theorem engineWf_of_ramp (hi : s.Inv) {kind : RampKind} {k : Nat} {r : RampAcc} (h : s.engine = .ramp kind k r) :
    k < s.cfg.fadeSize ∧ r.HasArith s.cfg.rampArith ∧ (kind = .fadeOut → s.lastqV = true) := by
  simpa only [EngineWf, h] using hi.engineWf

/-- The endpoints of the ramp in progress, of the form that the laws of a track ask for. -/
theorem OnTrack.endpoints (hi : s.Inv) (h : OnTrack T s) {kind : RampKind} {k : Nat} {r : RampAcc}
    (hs : s.engine = .ramp kind k r) :
    k < s.cfg.fadeSize ∧ ∃ start stop, RampEnds s kind start stop ∧ FadeEndpoints s.cfg start stop
      ∧ T s.cfg start stop k r := by
  obtain ⟨hk, -, hout⟩ := engineWf_of_ramp hi hs
  obtain ⟨start, stop, hends, hat⟩ := (onTrack_ramp_iff hs).1 h
  exact ⟨hk, start, stop, hends, hends.fadeEndpoints hi hout, hat⟩

end OnTrack

/-! Clean ramps -/

theorem CleanRamps.of_subset {s t : State} (h : CleanRamps s) (hq : t.outq ⊆ s.outq) (hc : t.cfg = s.cfg)
    (hcause : t.cause ≠ .rampRange) : CleanRamps t :=
  ⟨fun x hx => hc ▸ h.words x (hq hx), hcause⟩

theorem CleanRamps.of_push {s t : State} (h : CleanRamps s) {p : Pair} (hp : PairInRange s.cfg p)
    (hq : t.outq = s.outq ++ [p]) (hc : t.cfg = s.cfg) (hcause : t.cause = s.cause) : CleanRamps t where
  words := by
    intro x hx
    rw [hq, List.mem_append, List.mem_singleton] at hx
    rw [hc]
    rcases hx with hx | rfl
    · exact h.words x hx
    · exact hp
  inRange := hcause ▸ h.inRange

/-! What every step keeps -/

/-- The invariants of R35, with every ramp on the track and clean. -/
structure Tracked (T : Track) (s : State) : Prop where
  inv   : s.Inv
  track : OnTrack T s
  clean : CleanRamps s

section Tracked

variable {T : Track} {s t : State}

theorem SameBlock.tracked (hb : SameBlock s t) (h : Tracked T s) : Tracked T t where
  inv := hb.inv h.inv
  track := h.track.congr hb.engine hb.lastq hb.cfg
  clean := h.clean.of_subset (by simp [hb.outq]) hb.cfg (hb.cause ▸ h.clean.inRange)

theorem resetBlock_tracked (hl : s.cfg.Legal) : Tracked T (resetBlock s) where
  inv := resetBlock_inv hl
  track := onTrack_of_idle rfl
  clean := ⟨nofun, nofun⟩

theorem pop_tracked (h : Tracked T s) : Tracked T (pop s) where
  inv := pop_inv h.inv
  track := h.track.congr rfl rfl rfl
  clean := h.clean.of_subset (List.tail_subset s.outq) rfl h.clean.inRange

/-- An error other than RAMP_RANGE abandons the ramp (60_exceptions.md R104). -/
theorem raiseError_tracked (h : Tracked T s) {c : Cause} (hnone : c ≠ .none) (hrange : c ≠ .rampRange) :
    Tracked T (raiseError c s) := by
  cases he : s.err with
  | true => rwa [raiseError_of_err he]
  | false =>
    exact {
      inv := raiseError_inv h.inv hnone
      track := onTrack_of_idle (raiseError_engine_of_ok he)
      clean := h.clean.of_subset (by simp) (by simp) (by rwa [raiseError_cause_of_ok he]) }

theorem writeCtrl_tracked (h : Tracked T s) (v : Word) : Tracked T (writeCtrl v s) := by
  rcases writeCtrl_cases v s with ⟨-, hw⟩ | ⟨-, -, hw⟩ | ⟨-, -, -, hw⟩ | ⟨-, -, hidle, hw⟩
  · rw [hw]
    exact resetBlock_tracked h.inv.legal
  · rwa [hw]
  · rw [hw]
    exact raiseError_tracked h (by decide) (by decide)
  · refine ⟨writeCtrl_inv h.inv v, ?_, ?_⟩ <;> rw [hw]
    · exact onTrack_of_idle hidle
    · exact h.clean.of_subset (List.Subset.refl _) rfl h.clean.inRange

/-- A ramp that starts is on the track. -/
theorem startRamp_tracked (hlaws : TrackLaws T s.cfg) (h : Tracked T s) (he : s.err = false) {kind : RampKind}
    (hk : kind = .fadeOut → s.lastqV = true) {start stop : Nat} (hends : RampEnds s kind start stop) :
    Tracked T (startRamp kind start stop s) where
  inv := startRamp_inv h.inv he hk start stop
  track := (onTrack_ramp_iff rfl).2
    ⟨start, stop, hends.congr rfl rfl, hlaws.start (hends.fadeEndpoints h.inv hk)⟩
  clean := h.clean.of_subset (List.Subset.refl _) rfl h.clean.inRange

theorem accepted_tracked (hlaws : TrackLaws T s.cfg) (h : Tracked T s) (he : s.err = false) (i : Instr) :
    Tracked T (accepted i s) := by
  cases i with
  | quant imm =>
    exact ⟨accepted_inv h.inv he _, onTrack_of_emit1 rfl,
      h.clean.of_subset (List.Subset.refl _) rfl h.clean.inRange⟩
  | fadein imm =>
    exact startRamp_tracked (kind := .fadeIn) hlaws h he (by simp)
      ⟨rfl, quantize_wordInRange h.inv.legal (s16_range imm).2⟩
  | fadeout =>
    change Tracked T (acceptFadeOut s)
    cases hv : s.lastqV with
    | true =>
      rw [acceptFadeOut_of_sample hv]
      exact startRamp_tracked hlaws h he (fun _ => hv) ⟨rfl, rfl⟩
    | false =>
      rw [acceptFadeOut_of_none hv]
      exact raiseError_tracked h (by decide) (by decide)

theorem dispatch_tracked (hlaws : TrackLaws T s.cfg) (h : Tracked T s) {v : Word} (hd : dispatch v s = .next t) :
    Tracked T t := by
  obtain ⟨-, ⟨-, rfl⟩ | ⟨-, -, rfl⟩ | ⟨-, -, e, -, rfl⟩ | ⟨he, -, i, -, rfl⟩⟩ := dispatch_cases hd
  · exact h
  · exact raiseError_tracked h (by decide) (by decide)
  · exact raiseError_tracked h (by decide) (by decide)
  · exact accepted_tracked hlaws h he i

/-- The value of the ramp in progress is a word in [1, PERIOD-1]. -/
theorem Tracked.value (hlaws : TrackLaws T s.cfg) (h : Tracked T s) {kind : RampKind} {k : Nat} {r : RampAcc}
    (hs : s.engine = .ramp kind k r) : 1 ≤ r.trunc ∧ r.trunc ≤ (s.cfg.period : Int) - 1 := by
  obtain ⟨hk, start, stop, -, hends, hat⟩ := h.track.endpoints h.inv hs
  exact hlaws.value hends hk hat

/-- A step of the ramp subtracts once more and stays on the track, or is the N-th. -/
theorem onTrack_rampNext (hlaws : TrackLaws T s.cfg) (h : Tracked T s) {kind : RampKind} {k : Nat} {r : RampAcc}
    (hs : s.engine = .ramp kind k r) (ht : t.engine = rampNext s.cfg kind k r) (hq : t.lastq = s.lastq)
    (hc : t.cfg = s.cfg) : OnTrack T t := by
  obtain ⟨hk, start, stop, hramp, hends, hat⟩ := h.track.endpoints h.inv hs
  unfold rampNext at ht
  split at ht
  · exact onTrack_of_idle ht
  · rw [onTrack_ramp_iff ht, hc]
    exact ⟨start, stop, hramp.congr hq hc, hlaws.next hends hk hat⟩

theorem engineStep_tracked (hlaws : TrackLaws T s.cfg) (h : Tracked T s) (hr : EngineReady s) :
    Tracked T (engineStep s) := by
  suffices hkeep : OnTrack T (engineStep s) ∧ CleanRamps (engineStep s) from
    ⟨engineStep_inv h.inv hr, hkeep.1, hkeep.2⟩
  rcases engineStep_cases hr with ⟨p, hs, heq⟩ | ⟨kind, k, r, hs, hout, -⟩ | ⟨kind, k, r, hs, -, heq⟩
  · obtain ⟨hv, hp⟩ : s.lastqV = true ∧ p = payloadPair s.cfg s.mode s.lastq := by
      simpa only [EngineWf, hs] using h.inv.engineWf
    have hpair : PairInRange s.cfg p := hp ▸ payloadPair_range h.inv.legal (h.inv.sample hv) s.mode
    rw [heq]
    exact ⟨onTrack_of_idle rfl, h.clean.of_push hpair rfl rfl rfl⟩
  · have hval := h.value hlaws hs
    exact absurd hout (by omega)
  · have hval := h.value hlaws hs
    have hpair := fadePair_range (v := r.trunc.toNat) h.inv.legal (by omega) (by omega) kind s.mode
    rw [heq]
    exact ⟨onTrack_rampNext hlaws h hs rfl rfl rfl, h.clean.of_push hpair rfl rfl rfl⟩

/-- EVERY STEP KEEPS THE TRACK: each of the effects that `step_cases` lists does. -/
theorem step_tracked (hlaws : TrackLaws T s.cfg) (h : Tracked T s) (hstep : step s = .next t) : Tracked T t := by
  obtain ⟨-, u, hu, -, -, heff⟩ := step_cases hstep
  have hut : Tracked T u := hu.tracked h
  rw [← hu.cfg] at hlaws
  rcases heff with hsame | ⟨-, rfl⟩ | ⟨-, hr, rfl⟩ | ⟨-, hpop, -⟩ | ⟨v, -, -, rfl⟩ | ⟨v, -, hd⟩
  · exact hsame.tracked hut
  · exact resetBlock_tracked hut.inv.legal
  · exact engineStep_tracked hlaws hut hr
  · exact hpop.tracked (pop_tracked hut)
  · exact writeCtrl_tracked hut v
  · exact dispatch_tracked hlaws hut hd

end Tracked

/-! The exact value of a Distance ramp (41_ramp.md R88) -/

@[simp] theorem idealValue_zero (p : Params) (a b : Nat) : idealValue p a b 0 = a := by simp [idealValue]

/-- One step more is one subtraction more. -/
theorem idealValue_succ (p : Params) (a b k : Nat) :
    idealValue p a b (k + 1) = idealValue p a b k - ((a : Rat) - b) / p.fadeSize := by
  rw [idealValue, idealValue]
  push_cast
  ring

/-- The exact value is as many steps away from the end as there are to come. -/
theorem idealValue_eq_from_stop {p : Params} (hN : 1 ≤ p.fadeSize) (a b k : Nat) :
    idealValue p a b k = b + (p.fadeSize - k) * (((a : Rat) - b) / p.fadeSize) := by
  have hN' : (p.fadeSize : Rat) ≠ 0 := by exact_mod_cast (by omega : p.fadeSize ≠ 0)
  rw [idealValue]
  field_simp
  ring

/-- A ramp that does not ascend is in [end, start]. -/
theorem idealValue_of_descending {p : Params} {a b k : Nat} (hk : k < p.fadeSize) (h : b ≤ a) :
    (b : Rat) ≤ idealValue p a b k ∧ idealValue p a b k ≤ a := by
  have hba : (b : Rat) ≤ a := by exact_mod_cast h
  have hk' : (k : Rat) ≤ p.fadeSize := by exact_mod_cast hk.le
  have hd : 0 ≤ ((a : Rat) - b) / p.fadeSize := div_nonneg (by linarith) (by positivity)
  constructor
  · rw [idealValue_eq_from_stop (by omega)]
    have := mul_nonneg (sub_nonneg.2 hk') hd
    linarith
  · rw [idealValue]
    have : 0 ≤ (k : Rat) * (((a : Rat) - b) / p.fadeSize) := mul_nonneg (by positivity) hd
    linarith

/-- A ramp that ascends is in [start, end), with a step to come. -/
theorem idealValue_of_ascending {p : Params} {a b k : Nat} (hk : k < p.fadeSize) (h : a < b) :
    (a : Rat) ≤ idealValue p a b k ∧ idealValue p a b k < b := by
  have hab : (a : Rat) < b := by exact_mod_cast h
  have hk' : (k : Rat) < p.fadeSize := by exact_mod_cast hk
  have hN : (0 : Rat) < p.fadeSize := by exact_mod_cast (by omega : 0 < p.fadeSize)
  have hd : ((a : Rat) - b) / p.fadeSize < 0 := div_neg_of_neg_of_pos (by linarith) hN
  constructor
  · rw [idealValue]
    have : (k : Rat) * (((a : Rat) - b) / p.fadeSize) ≤ 0 := mul_nonpos_of_nonneg_of_nonpos (by positivity) hd.le
    linarith
  · rw [idealValue_eq_from_stop (by omega)]
    have := mul_neg_of_pos_of_neg (sub_pos.2 hk') hd
    linarith

/-- The truncated exact value is in [end, start], or in [start, end - 1] where the ramp ascends. -/
theorem truncRat_idealValue {p : Params} {a b k : Nat} (hk : k < p.fadeSize) :
    (b ≤ a → (b : Int) ≤ truncRat (idealValue p a b k) ∧ truncRat (idealValue p a b k) ≤ a)
      ∧ (a < b → (a : Int) ≤ truncRat (idealValue p a b k) ∧ truncRat (idealValue p a b k) ≤ (b : Int) - 1) := by
  refine ⟨fun h => ?descending, fun h => ?ascending⟩
  case descending =>
    obtain ⟨hlo, hhi⟩ := idealValue_of_descending hk h
    rw [truncRat_of_nonneg ((Nat.cast_nonneg b).trans hlo)]
    exact ⟨Int.le_floor.2 (by exact_mod_cast hlo), by exact_mod_cast (Int.floor_le _).trans hhi⟩
  case ascending =>
    obtain ⟨hlo, hhi⟩ := idealValue_of_ascending hk h
    rw [truncRat_of_nonneg ((Nat.cast_nonneg a).trans hlo)]
    exact ⟨Int.le_floor.2 (by exact_mod_cast hlo), Int.le_sub_one_of_lt (Int.floor_lt.2 (by exact_mod_cast hhi))⟩

/-! Exact arithmetic -/

/-- The accumulator is at its exact value, and the step is the exact one. -/
def ExactAt : Track := fun p a b k r =>
  r = .exact (idealValue p a b k) (((a : Rat) - b) / p.fadeSize)

theorem exactAt_laws {p : Params} (hl : p.Legal) (ha : p.rampArith = .exact) (hf : p.rampStepForm = .distance) :
    TrackLaws ExactAt p where
  start := by
    intro a b _
    simp [ExactAt, rampInit, rampDistance, ha, hf]
  next := by
    rintro a b k r - - rfl
    rw [ExactAt, RampAcc.advance, idealValue_succ]
  value := by
    rintro a b k r hends hk rfl
    obtain ⟨ha1, ha2, hb1, hb2⟩ := hends.range hl
    obtain ⟨hdesc, hasc⟩ := truncRat_idealValue (a := a) (b := b) hk
    rw [RampAcc.trunc]
    rcases Nat.lt_or_ge a b with h | h
    · have := hasc h
      omega
    · have := hdesc h
      omega

/-- The track of the invariant, where the arithmetic is exact. -/
theorem exactTrack_iff {s : State} (hi : s.Inv) (ha : s.cfg.rampArith = .exact) : ExactTrack s ↔ OnTrack ExactAt s := by
  cases hs : s.engine with
  | idle => simp only [ExactTrack, OnTrack, hs]
  | emit1 p => simp only [ExactTrack, OnTrack, hs]
  | ramp kind k r =>
    cases r with
    | exact acc d => simp only [ExactTrack, OnTrack, hs, ExactAt, RampAcc.exact.injEq]
    | binary32 acc d =>
      obtain ⟨-, hr, -⟩ := engineWf_of_ramp hi hs
      rw [ha] at hr
      cases hr

theorem exactInv_iff (s : State) :
    ExactInv s ↔ Tracked ExactAt s ∧ s.cfg.rampArith = .exact ∧ s.cfg.rampStepForm = .distance :=
  ⟨fun ⟨hi, ha, hf, htrack, hclean⟩ => ⟨⟨hi, (exactTrack_iff hi ha).1 htrack, hclean⟩, ha, hf⟩,
    fun ⟨⟨hi, htrack, hclean⟩, ha, hf⟩ => ⟨hi, ha, hf, (exactTrack_iff hi ha).2 htrack, hclean⟩⟩

/-- Settles O52: `step_tracked` for the track of exact values. -/
theorem stepKeepsExactRampsInRange : Obligations.StepKeepsExactRampsInRange := by
  intro s t h hstep
  obtain ⟨htracked, ha, hf⟩ := (exactInv_iff s).1 h
  have hc := noStepChangesTheConfiguration s t hstep
  exact (exactInv_iff t).2 ⟨step_tracked (exactAt_laws h.base.legal ha hf) htracked hstep, hc ▸ ha, hc ▸ hf⟩

/-- Settles O53: the accumulator is the exact value, which `truncRat_idealValue` bounds. -/
theorem exactRampValues : Obligations.ExactRampValues := by
  intro s kind k r h hs
  obtain ⟨htracked, -, -⟩ := (exactInv_iff s).1 h
  obtain ⟨hk, start, stop, hramp, -, rfl⟩ := htracked.track.endpoints h.base hs
  exact ⟨start, stop, _, _, rfl, hramp, rfl, rfl, truncRat_idealValue hk⟩

end Sys2Proof.Machine
end

section
/-! Binary32 ramps at the default PERIOD (41_ramp.md R80, R88): the error of one division and of one subtraction, that the
accumulator stays near its exact value, and that a value near an exact one is a word in [1, PERIOD-1]. -/

namespace Sys2Proof.Machine

open Sys2Proof

/-! Rounding errors as rationals -/

theorem toRat_eq (x : Binary32) : x.toRat = x.units / 2 ^ 149 := by
  rw [Binary32.toRat, Nat.cast_pow, Nat.cast_ofNat]

/-- A bound on the distance to a value, in units and times a divisor, as one between rationals. -/
theorem near_of_units_gap {x : Binary32} {v : Int} {den e : Nat} (hden : 0 < den)
    (h : 2 * (x.units * den - v).natAbs ≤ den * 2 ^ e) :
    Near x.toRat (v / (den * 2 ^ 149)) (2 ^ e / 2 ^ 150) := by
  have hd : (0 : Rat) < den := by exact_mod_cast hden
  have hcast : 2 * |(x.units : Rat) * den - v| ≤ den * 2 ^ e := by
    have hnat : ((x.units * den - v).natAbs : Rat) = |(x.units : Rat) * den - v| := by
      rw [Nat.cast_natAbs]
      push_cast
      rfl
    rw [← hnat]
    exact_mod_cast h
  have hdiff : x.toRat - v / (den * 2 ^ 149) = (x.units * den - v) / (den * 2 ^ 149) := by
    rw [toRat_eq, sub_div, mul_comm (x.units : Rat), mul_div_mul_left _ _ hd.ne']
  have habs : |x.toRat - v / (den * 2 ^ 149)| ≤ 2 ^ e / 2 ^ 150 := by
    rw [hdiff, abs_div, abs_of_pos (by positivity : (0 : Rat) < den * 2 ^ 149),
      div_le_div_iff₀ (by positivity) (by positivity)]
    calc |(x.units : Rat) * den - v| * 2 ^ 150 = 2 * |(x.units : Rat) * den - v| * 2 ^ 149 := by ring
      _ ≤ (den : Rat) * 2 ^ e * 2 ^ 149 := by gcongr
      _ = 2 ^ e * ((den : Rat) * 2 ^ 149) := by ring
  exact ⟨(abs_le.1 habs).2, by linarith [(abs_le.1 habs).1]⟩

/-- A difference below 2^13 is off by at most 2^-12 (41_ramp.md R80). -/
theorem sub_near {a b : Binary32} (hlo : -8192 < a.toRat - b.toRat) (hhi : a.toRat - b.toRat < 8192) :
    Near (Binary32.sub a b).toRat (a.toRat - b.toRat) (1 / 2 ^ 12) := by
  have hdiff : a.toRat - b.toRat = ((a.units - b.units : Int) : Rat) / 2 ^ 149 := by
    rw [toRat_eq, toRat_eq, Int.cast_sub, sub_div]
  have hlt : (a.units - b.units).natAbs < 2 ^ (24 + 138) := by
    rw [hdiff, lt_div_iff₀ (by norm_num)] at hlo
    rw [hdiff, div_lt_iff₀ (by norm_num)] at hhi
    have h1 : -8192 * 2 ^ 149 < a.units - b.units := by exact_mod_cast hlo
    have h2 : a.units - b.units < 8192 * 2 ^ 149 := by exact_mod_cast hhi
    omega
  have hnear := near_of_units_gap (x := Binary32.sub a b) (v := a.units - b.units) (e := 138) Nat.one_pos
    (by simpa using sub_units_gap_of_lt hlt (by decide))
  rw [hdiff]
  norm_num at hnear ⊢
  exact hnear

theorem divValue_fromInt {d : Int} {n : Nat} (hd : d.natAbs < 2 ^ 24) :
    divValue (Binary32.fromInt d) (Binary32.fromInt n) = d * 2 ^ 149 * 2 ^ 149 := by
  rw [divValue, fromInt_sign, fromInt_units hd]
  simp

/-- The quotient of integers below 8 is off by at most 2^-22 (41_ramp.md R80, R82). -/
theorem div_fromInt_near {d : Int} {n : Nat} (hn : 0 < n) (hn' : n < 2 ^ 21) (hd : d.natAbs < 8 * n) :
    Near (Binary32.div (Binary32.fromInt d) (Binary32.fromInt n)).toRat (d / n) (1 / 2 ^ 22) := by
  have hd' : d.natAbs < 2 ^ 24 := by omega
  have hmag : (Binary32.fromInt n).mag = n * 2 ^ 149 := fromInt_mag (i := n) (by omega)
  have hden : 0 < (Binary32.fromInt n).mag := by omega
  have hv : (divValue (Binary32.fromInt d) (Binary32.fromInt n)).natAbs < 2 ^ (24 + 128) * (Binary32.fromInt n).mag := by
    rw [divValue_natAbs, fromInt_mag hd', hmag]
    omega
  have hgap := round_units_gap hden hv (by decide) (divValue_signOf _ _)
  rw [← div_eq_round] at hgap
  have hnear := near_of_units_gap hden hgap
  have hquot : ((d * 2 ^ 149 * 2 ^ 149 : Int) : Rat) / ((n * 2 ^ 149 : Nat) * 2 ^ 149) = d / n := by
    push_cast
    rw [mul_assoc, mul_assoc]
    exact mul_div_mul_right _ _ (by norm_num)
  rw [divValue_fromInt hd', hmag, hquot] at hnear
  norm_num at hnear ⊢
  exact hnear

/-! The default constants -/

theorem fadeSize_of_period {p : Params} (h : p.period = 5668) : p.fadeSize = 566 := by rw [Params.fadeSize, h]

theorem silence_of_period {p : Params} (h : p.period = 5668) : p.silence = 2834 := by rw [Params.silence, h]

/-- No step of a ramp is longer than one of the ramp from SILENCE to an end of the word range. -/
theorem exactStep_near_zero {p : Params} (hp : p.period = 5668) {a b : Nat} (h : FadeEndpoints p a b) :
    Near (((a : Rat) - b) / p.fadeSize) 0 (2833 / 566) := by
  rw [FadeEndpoints, silence_of_period hp, hp] at h
  rw [fadeSize_of_period hp]
  have hlo : -2833 ≤ (a : Rat) - b := by
    have : -2833 ≤ (a : Int) - b := by omega
    exact_mod_cast this
  have hhi : (a : Rat) - b ≤ 2833 := by
    have : (a : Int) - b ≤ 2833 := by omega
    exact_mod_cast this
  push_cast
  constructor <;> linarith

/-- Steps of bounded length go a bounded way. -/
theorem near_zero_mul {x e n : Rat} (hn : 0 ≤ n) (h : Near x 0 e) : Near (n * x) 0 (n * e) := by
  obtain ⟨h1, h2⟩ := h
  rw [sub_zero] at h1
  rw [zero_sub] at h2
  have hhi := mul_le_mul_of_nonneg_left h1 hn
  have hlo := mul_le_mul_of_nonneg_left h2 hn
  constructor <;> linarith

/-- The exact values keep away from the ends of the word range by more than the error that `k` steps may have added: a
fade-in has gone `k` steps from SILENCE, a fade-out has `N - k` to go to it. -/
theorem idealValue_near_silence {p : Params} (hp : p.period = 5668) {a b k : Nat} (h : FadeEndpoints p a b)
    (hk : k < p.fadeSize) : Near (idealValue p a b k) 2834 (2833 - k / 2 ^ 11) := by
  have hstep := exactStep_near_zero hp h
  have hN := fadeSize_of_period hp
  have hk0 : (0 : Rat) ≤ k := Nat.cast_nonneg k
  have hk' : (k : Rat) ≤ 565 := by exact_mod_cast (by omega : k ≤ 565)
  rcases h with ⟨ha, -, -⟩ | ⟨-, -, hb⟩
  · obtain ⟨h1, h2⟩ := near_zero_mul hk0 hstep
    rw [idealValue, show (a : Rat) = 2834 by exact_mod_cast ha.trans (silence_of_period hp)] at *
    constructor <;> linarith
  · obtain ⟨h1, h2⟩ := near_zero_mul (n := p.fadeSize - k) (by rw [hN]; push_cast; linarith) hstep
    rw [idealValue_eq_from_stop (by omega), show (b : Rat) = 2834 by exact_mod_cast hb.trans (silence_of_period hp)] at *
    rw [hN] at *
    push_cast at *
    constructor <;> linarith

/-! The track of a binary32 ramp -/

/-- The accumulator is near its exact value, and the step near the exact one (41_ramp.md R88). -/
def BinaryAt : Track := fun p a b k r =>
  ∃ acc d, r = .binary32 acc d ∧ Near acc.toRat (idealValue p a b k) ((k : Rat) / (2 ^ 11 : Nat))
    ∧ Near d.toRat (((a : Rat) - b) / p.fadeSize) (1 / (2 ^ 20 : Nat))

/-- Near an exact value of a ramp is the word range. -/
theorem acc_range {p : Params} (hp : p.period = 5668) {a b k : Nat} (h : FadeEndpoints p a b) (hk : k < p.fadeSize)
    {acc : Binary32} (hacc : Near acc.toRat (idealValue p a b k) ((k : Rat) / (2 ^ 11 : Nat))) :
    1 ≤ acc.toRat ∧ acc.toRat ≤ 5667 := by
  obtain ⟨h1, h2⟩ := idealValue_near_silence hp h hk
  obtain ⟨h3, h4⟩ := hacc
  push_cast at h3 h4
  constructor <;> linarith

theorem trunc_eq_floor {x : Binary32} (h : 0 ≤ x.toRat) : x.trunc = ⌊x.toRat⌋ := by
  rw [trunc_eq_truncRat x h, truncRat_of_nonneg h]

/-- A ramp starts exactly at its start, with a step rounded once. -/
theorem binaryAt_start {p : Params} (hp : p.period = 5668) (ha : p.rampArith = .binary32)
    (hf : p.rampStepForm = .distance) {a b : Nat} (h : FadeEndpoints p a b) :
    BinaryAt p a b 0 (rampInit p a b) := by
  have hN := fadeSize_of_period hp
  rw [FadeEndpoints, silence_of_period hp, hp] at h
  have hacc := (fromIntIsExact a (by omega)).1
  have hstep := div_fromInt_near (d := (a : Int) - b) (n := p.fadeSize) (by omega) (by omega) (by omega)
  refine ⟨Binary32.fromInt a, _, by simp only [rampInit, rampDistance, ha, hf]; rfl, ?acc, ?step⟩
  case acc =>
    rw [hacc, idealValue_zero]
    simp
  case step =>
    obtain ⟨h1, h2⟩ := hstep
    push_cast at h1 h2 ⊢
    constructor <;> linarith

/-- One subtraction adds its own rounding error and that of the step, together at most 2^-11. -/
theorem binaryAt_next {p : Params} (hp : p.period = 5668) {a b k : Nat} {r : RampAcc} (h : FadeEndpoints p a b)
    (hk : k < p.fadeSize) (hr : BinaryAt p a b k r) : BinaryAt p a b (k + 1) r.advance := by
  obtain ⟨acc, d, rfl, hacc, hd⟩ := hr
  refine ⟨Binary32.sub acc d, d, rfl, ?_, hd⟩
  obtain ⟨hlo, hhi⟩ := acc_range hp h hk hacc
  obtain ⟨h1, h2⟩ := exactStep_near_zero hp h
  obtain ⟨h3, h4⟩ := hacc
  obtain ⟨h5, h6⟩ := hd
  push_cast at h3 h4 h5 h6 ⊢
  obtain ⟨h7, h8⟩ := sub_near (a := acc) (b := d) (by linarith) (by linarith)
  rw [idealValue_succ]
  constructor <;> linarith

theorem binaryAt_laws {p : Params} (hp : p.period = 5668) (ha : p.rampArith = .binary32)
    (hf : p.rampStepForm = .distance) : TrackLaws BinaryAt p where
  start := binaryAt_start hp ha hf
  next := binaryAt_next hp
  value := by
    rintro a b k r h hk ⟨acc, d, rfl, hacc, -⟩
    obtain ⟨hlo, hhi⟩ := acc_range hp h hk hacc
    rw [RampAcc.trunc, trunc_eq_floor (by linarith), hp]
    exact ⟨Int.le_floor.2 (by exact_mod_cast hlo), by exact_mod_cast (Int.floor_le _).trans hhi⟩

/-- The track of the invariant, where the arithmetic is binary32. -/
theorem binaryTrack_iff {s : State} (hi : s.Inv) (ha : s.cfg.rampArith = .binary32) :
    BinaryTrack s ↔ OnTrack BinaryAt s := by
  cases hs : s.engine with
  | idle => simp only [BinaryTrack, OnTrack, hs]
  | emit1 p => simp only [BinaryTrack, OnTrack, hs]
  | ramp kind k r =>
    cases r with
    | binary32 acc d => simp [BinaryTrack, OnTrack, hs, BinaryAt]
    | exact acc d =>
      obtain ⟨-, hr, -⟩ := engineWf_of_ramp hi hs
      rw [ha] at hr
      cases hr

theorem defaultInv_iff (s : State) :
    DefaultInv s ↔ Tracked BinaryAt s ∧ s.cfg.period = 5668 ∧ s.cfg.rampArith = .binary32
      ∧ s.cfg.rampStepForm = .distance :=
  ⟨fun ⟨hi, hp, ha, hf, htrack, hclean⟩ => ⟨⟨hi, (binaryTrack_iff hi ha).1 htrack, hclean⟩, hp, ha, hf⟩,
    fun ⟨⟨hi, htrack, hclean⟩, hp, ha, hf⟩ => ⟨hi, hp, ha, hf, (binaryTrack_iff hi ha).2 htrack, hclean⟩⟩

/-- Settles O54: `step_tracked` for the track of values near the exact ones. -/
theorem stepKeepsDefaultRampsInRange : Obligations.StepKeepsDefaultRampsInRange := by
  intro s t h hstep
  obtain ⟨htracked, hp, ha, hf⟩ := (defaultInv_iff s).1 h
  have hc := noStepChangesTheConfiguration s t hstep
  exact (defaultInv_iff t).2 ⟨step_tracked (binaryAt_laws hp ha hf) htracked hstep, hc ▸ hp, hc ▸ ha, hc ▸ hf⟩

/-- Rationals less than 1 apart have floors at most 1 apart. -/
theorem floor_sub_floor_le_one {x y e : Rat} (h : Near x y e) (he : e < 1) : ⌊x⌋ - ⌊y⌋ ≤ 1 ∧ ⌊y⌋ - ⌊x⌋ ≤ 1 := by
  obtain ⟨h1, h2⟩ := h
  have hxy : ⌊x⌋ < ⌊y⌋ + 2 := Int.floor_lt.2 (by push_cast; linarith [Int.lt_floor_add_one y])
  have hyx : ⌊y⌋ < ⌊x⌋ + 2 := Int.floor_lt.2 (by push_cast; linarith [Int.lt_floor_add_one x])
  omega

/-- Settles O55: the accumulator and its exact value are less than 1 apart, since `k` is below 2^11. -/
theorem binaryRampIsNearExact : Obligations.BinaryRampIsNearExact := by
  intro s kind k r h hs
  obtain ⟨htracked, hp, ha, hf⟩ := (defaultInv_iff s).1 h
  obtain ⟨hv1, hv2⟩ := htracked.value (binaryAt_laws hp ha hf) hs
  obtain ⟨hk, start, stop, hramp, hends, acc, d, rfl, hacc, hd⟩ := htracked.track.endpoints h.base hs
  refine ⟨hv1, by omega, start, stop, acc, d, rfl, hramp, hd, ?_⟩
  have hk' : (k : Rat) ≤ 565 := by
    rw [fadeSize_of_period hp] at hk
    exact_mod_cast (by omega : k ≤ 565)
  have hideal : 0 ≤ idealValue s.cfg start stop k := by
    have := (idealValue_near_silence hp hends hk).2
    linarith [(Nat.cast_nonneg k : (0 : Rat) ≤ k)]
  rw [RampAcc.trunc, trunc_eq_floor (by linarith [(acc_range hp hends hk hacc).1]), truncRat_of_nonneg hideal]
  exact floor_sub_floor_le_one hacc (by push_cast; linarith)

/-- Settles O56: a block that was reset meets the invariants of R35 and has neither a ramp, nor a pair, nor an error. -/
theorem resetMeetsTheRampInvariants : Obligations.ResetMeetsTheRampInvariants :=
  ⟨(defaultInv_iff _).2 ⟨resetBlock_tracked (s := State.reset) thisHardware_legal, thisHardware_period, rfl, rfl⟩,
    fun s hl ha hf => (exactInv_iff (resetBlock s)).2 ⟨resetBlock_tracked hl, ha, hf⟩⟩

end Sys2Proof.Machine
end

section
/-! The exceptions (60_exceptions.md R100 to R108): what each transition does while an error is recorded, that only a reset
clears the latch, and which transitions record an error, with which cause. -/

namespace Sys2Proof.Machine

open Sys2Proof

/-! While an error is recorded (60_exceptions.md R105) -/

theorem exec_of_err {s : State} (hl : s.cfg.Legal) (he : s.err = true) (i : Instr) : exec i s = .next s := by
  rw [exec_eq_whenReady, whenReady_of_err hl he]

theorem dispatch_of_err {s : State} (hl : s.cfg.Legal) (he : s.err = true) (v : Word) : dispatch v s = .next s := by
  rw [dispatch_eq_whenReady, whenReady_of_err hl he]

theorem writeCtrl_of_reset {v : Word} (hv : v.getLsbD 31 = true) (s : State) : writeCtrl v s = resetBlock s := by
  rw [writeCtrl, if_pos hv]

theorem writeCtrl_of_err {s : State} {v : Word} (he : s.err = true) (hv : v.getLsbD 31 = false) : writeCtrl v s = s := by
  rw [writeCtrl, if_neg (ne_true_of_eq_false hv), if_pos he]

theorem not_engineReady_of_err {s : State} (he : s.err = true) : ¬ EngineReady s :=
  fun hr => ne_true_of_eq_false hr.1 he

theorem engineTurn_of_err {s : State} (he : s.err = true) : engineTurn s = s :=
  if_neg (not_engineReady_of_err he)

/-- Settles O45: the CMD write and the command stop at the check of `err`, the CTRL write looks at bit 31 before it, a read
does not look at `err`, and the engine is not ready. -/
theorem transitionsWhileInError : Obligations.TransitionsWhileInError := by
  intro s v hl he
  refine ⟨?cmd, exec_of_err hl he, fun hv => ?ctrl, fun hv => ?reset, fun r hr => step_rd_of_ne_out hl hr, ?out, ?engine⟩
  case cmd => rw [step_withCommandWrite hl, dispatch_of_err hl he]
  case ctrl => rw [step_wr_ctrl hl, writeCtrl_of_err he hv]
  case reset => rw [step_wr_ctrl hl, writeCtrl_of_reset hv]
  case out => rw [step_withHostOp hl, hostOp_rd, afterRead, pairsAfterRead, pop]
  case engine => rw [step_withTurn hl, turn, engineTurn_of_err he]

/-! The end of an error (60_exceptions.md R108) -/

/-- A step that is no reset keeps a recorded error and its cause (60_exceptions.md R103, R105). -/
theorem step_keeps_latch {s t : State} (he : s.err = true) (h : step s = .next t) (hr : ¬ ResetNext s) :
    t.err = true ∧ t.cause = s.cause := by
  obtain ⟨hl, u, hu, -, -, heff⟩ := step_cases h
  have hue : u.err = true := hu.err.trans he
  have hul : u.cfg.Legal := hu.cfg.symm ▸ hl
  rw [← hu.cause]
  rcases heff with hsame | ⟨hr', -⟩ | ⟨-, hready, -⟩ | ⟨-, hpop, -⟩ | ⟨v, -, hv, rfl⟩ | ⟨v, -, hd⟩
  · exact ⟨hsame.err.trans hue, hsame.cause⟩
  · exact absurd hr' hr
  · exact absurd hready (not_engineReady_of_err hue)
  · exact ⟨hpop.err.trans hue, hpop.cause⟩
  · rw [writeCtrl_of_err hue hv]
    exact ⟨hue, rfl⟩
  · rw [dispatch_of_err hul hue] at hd
    cases hd
    exact ⟨hue, rfl⟩

/-- Settles O46: a reset event clears the latch by `step_of_resetNext`, and no other step does by `step_keeps_latch`. -/
theorem errorLastsUntilReset : Obligations.ErrorLastsUntilReset := by
  intro s t he h
  by_cases hr : ResetNext s
  case neg =>
    obtain ⟨hte, htc⟩ := step_keeps_latch he h hr
    exact .inl ⟨hte, htc, hr⟩
  case pos =>
    obtain ⟨hl, -⟩ := step_cases h
    obtain ⟨u, -, -, -, hu⟩ := step_of_resetNext hl hr
    cases hu.symm.trans h
    exact .inr ⟨hr, resetBlock_err u, resetBlock_cause u, resetBlock_outq u, resetBlock_lastqV u⟩

/-! The causes of an error (60_exceptions.md R101, R102) -/

/-- A CTRL write that is no reset records an error only as CTRL_BUSY, while the engine is busy (20_memory.md R44). -/
theorem writeCtrl_raises {v : Word} {s : State} (hv : v.getLsbD 31 = false) (he : s.err = false)
    (ht : (writeCtrl v s).err = true) : s.engine ≠ .idle ∧ writeCtrl v s = raiseError .ctrlBusy s := by
  rcases writeCtrl_cases v s with ⟨h31, -⟩ | ⟨-, he', -⟩ | ⟨-, -, hb, h⟩ | ⟨-, -, -, h⟩
  · cases hv.symm.trans h31
  · cases he.symm.trans he'
  · exact ⟨hb, h⟩
  · rw [h] at ht
    cases he.symm.trans ht

/-- An accepted command records an error only as FADEOUT without a sample (41_ramp.md R87). -/
theorem accepted_raises {i : Instr} {s : State} (he : s.err = false) (ht : (accepted i s).err = true) :
    i = .fadeout ∧ s.lastqV = false ∧ accepted i s = raiseError .noSample s := by
  by_cases hi : i = .fadeout
  case neg => cases he.symm.trans ((accepted_latch hi s).1.symm.trans ht)
  case pos =>
    subst hi
    cases hq : s.lastqV with
    | false => exact ⟨rfl, rfl, acceptFadeOut_of_none hq⟩
    | true =>
      rw [accepted, acceptFadeOut_of_sample hq, startRamp_err] at ht
      cases he.symm.trans ht

/-- A CMD write records an error only as CMD_BUSY, ILLEGAL_CMD or NO_SAMPLE, in the order of its checks
(30_encoding.md R69). -/
theorem dispatch_raises {v : Word} {s t : State} (he : s.err = false) (h : dispatch v s = .next t) (ht : t.err = true) :
    (s.engine ≠ .idle ∧ t = raiseError .cmdBusy s)
      ∨ (s.engine = .idle ∧ ∃ e, decode v = .error e ∧ t = raiseError .illegalCmd s)
      ∨ (s.engine = .idle ∧ s.lastqV = false ∧ decode v = .ok .fadeout ∧ t = raiseError .noSample s) := by
  obtain ⟨-, ⟨he', -⟩ | ⟨-, hb, h⟩ | ⟨-, hi, h⟩ | ⟨-, hi, i, hd, rfl⟩⟩ := dispatch_cases h
  · cases he.symm.trans he'
  · exact .inl ⟨hb, h⟩
  · exact .inr (.inl ⟨hi, h⟩)
  · obtain ⟨rfl, hq, h⟩ := accepted_raises he ht
    exact .inr (.inr ⟨hi, hq, hd, h⟩)

/-- An engine step records an error only as a ramp value out of range (41_ramp.md R84). -/
theorem engineStep_raises {s : State} (hr : EngineReady s) (ht : (engineStep s).err = true) :
    engineStep s = raiseError .rampRange s ∧ ∃ kind k r, s.engine = .ramp kind k r ∧ RampOutOfRange s.cfg r.trunc := by
  have ⟨he, _, _⟩ := hr
  rcases engineStep_cases hr with ⟨p, -, h⟩ | ⟨kind, k, r, hs, hout, h⟩ | ⟨kind, k, r, -, -, h⟩
  · rw [h, emitStep_err] at ht
    cases he.symm.trans ht
  · exact ⟨h, kind, k, r, hs, hout⟩
  · rw [h] at ht
    cases he.symm.trans ht

/-- The latch in a state with no error: the cause is recorded, the engine goes idle, and the queue, the mode and the last
sample stay (60_exceptions.md R103, R104). -/
theorem raiseError_latches {s t : State} {c : Cause} (he : s.err = false) (h : t = raiseError c s) :
    t.cause = c ∧ t.engine = .idle ∧ t.outq = s.outq ∧ t.mode = s.mode ∧ t.lastq = s.lastq ∧ t.lastqV = s.lastqV := by
  rw [h, raiseError_of_ok he]
  exact ⟨rfl, rfl, rfl, rfl, rfl, rfl⟩

/-- Settles O44: of the effects that `step_cases` lists, an engine step, a CTRL write and a CMD write record an error, each
by `raiseError`. -/
theorem errorsHaveTheirCauses : Obligations.ErrorsHaveTheirCauses := by
  intro s t he h ht
  obtain ⟨-, u, hu, -, -, heff⟩ := step_cases h
  rw [← hu.err] at he
  rw [← hu.engine, ← hu.outq, ← hu.mode, ← hu.lastq, ← hu.lastqV, ← hu.cfg]
  have hkept (hte : t.err = u.err) : False := ne_true_of_eq_false (hte.trans he) ht
  rcases heff with hsame | ⟨-, rfl⟩ | ⟨hturn, hready, rfl⟩ | ⟨-, hpop, -⟩ | ⟨v, hw, hv, rfl⟩ | ⟨v, hw, hd⟩
  · exact (hkept hsame.err).elim
  · cases ht
  · obtain ⟨hraise, hout⟩ := engineStep_raises hready ht
    obtain ⟨hcause, hframe⟩ := raiseError_latches he hraise
    exact ⟨hframe, .inr (.inr (.inr (.inl ⟨hcause, hturn, hout⟩)))⟩
  · exact (hkept hpop.err).elim
  · obtain ⟨hb, hraise⟩ := writeCtrl_raises hv he ht
    obtain ⟨hcause, hframe⟩ := raiseError_latches he hraise
    exact ⟨hframe, .inr (.inr (.inr (.inr ⟨hcause, hb, v, hw, hv⟩)))⟩
  · rcases dispatch_raises he hd ht with ⟨hb, hraise⟩ | ⟨hi, e, hdec, hraise⟩ | ⟨hi, hq, hdec, hraise⟩
    all_goals obtain ⟨hcause, hframe⟩ := raiseError_latches he hraise; refine ⟨hframe, ?_⟩
    · exact .inr (.inl ⟨hcause, hb, v, hw⟩)
    · exact .inl ⟨hcause, hi, v, e, hw, hdec⟩
    · exact .inr (.inr (.inl ⟨hcause, hi, hq, v, hw, hdec⟩))

end Sys2Proof.Machine
end

section
/-! Reset and hazards (70_reset_and_hazards.md): what the two reset events do, a command written while the engine is busy,
a FADEOUT without a sample, and the end of a run. -/

namespace Sys2Proof.Machine

open Sys2Proof

/-! A command that cannot run (70_reset_and_hazards.md R128, R132) -/

/-- The checks before a command, with the whole next state of a busy engine (60_exceptions.md R103, R104). -/
theorem whenReady_records_cmdBusy {s : State} (hl : s.cfg.Legal) (he : s.err = false) (hb : s.engine ≠ .idle) (f) :
    whenReady s f = .next { s with err := true, cause := .cmdBusy, engine := .idle } := by
  rw [whenReady_of_busy hl he hb, raiseError_of_ok he]

/-- Settles O14: a command and a CMD write of any word both stop at the check of the engine. -/
theorem commandWhileBusyIsAnError : Obligations.CommandWhileBusyIsAnError := by
  intro s hl he hb
  refine ⟨fun i => ?command, fun v => ?cmdWrite⟩
  case command => rw [exec_eq_whenReady, whenReady_records_cmdBusy hl he hb]
  case cmdWrite => rw [step_withCommandWrite hl, dispatch_eq_whenReady, whenReady_records_cmdBusy hl he hb]

/-- Settles O23: FADEOUT is accepted, finds no sample, and raises the error. -/
theorem fadeoutWithoutSampleIsAnError : Obligations.FadeoutWithoutSampleIsAnError := by
  intro s hl he hi hq
  rw [exec_of_ready hl he hi, accepted, acceptFadeOut_of_none hq, raiseError_of_ok he]

/-! The reset events (70_reset_and_hazards.md R120, R121) -/

theorem step_powerOn {s : State} (hl : s.cfg.Legal) : step (withTurn .powerOn s) = .next (resetBlock s) := by
  rw [step_withTurn hl, turn]

/-- A CTRL write with bit 31 = 1 resets the block (20_memory.md R44). -/
theorem step_ctrlReset {s : State} {v : Word} (hl : s.cfg.Legal) (hv : v.getLsbD 31 = true) :
    step (withHostOp (HostOp.wr .ctrl v) s) = .next (resetBlock s) := by
  rw [step_wr_ctrl hl, writeCtrl_of_reset hv]

/-- Settles O2: both events are `resetBlock`, which is the record update written out. -/
theorem bothResetsResetAnyState : Obligations.BothResetsResetAnyState :=
  fun _ _ hl => ⟨step_powerOn hl, fun hv => step_ctrlReset hl hv⟩

/-- Settles O57: both events are `resetBlock`, of which each field is known. -/
theorem resetEventsSetTheStateTuple : Obligations.ResetEventsSetTheStateTuple := by
  intro s v hl isReset
  have hreset : isReset (resetBlock s) :=
    ⟨resetBlock_mode s, resetBlock_err s, resetBlock_cause s, resetBlock_outq s, resetBlock_engine s, resetBlock_lastq s,
      resetBlock_lastqV s, resetBlock_cfg s⟩
  exact ⟨⟨resetBlock s, step_powerOn hl, hreset⟩, fun hv => ⟨resetBlock s, step_ctrlReset hl hv, hreset⟩⟩

/-! The end of a run (70_reset_and_hazards.md R136) -/

theorem result?_of_over {s : State} (h : s.Over) :
    s.result? = some { pairs := s.pairsRead, status := regValue .status s } := by
  rw [State.result?, if_pos h]

theorem result?_of_not_over {s : State} (h : ¬ s.Over) : s.result? = none := by
  rw [State.result?, if_neg h]

/-- STATUS.ERR as the host reads it (10_state.md R22). -/
theorem status_err (s : State) : (regValue .status s).getLsbD 3 = s.err :=
  statusWord_getLsbD s 3

/-- Settles O58: the result is defined by `State.Over`, and ERR of the final STATUS is the latch that `State.Clean` asks
about. -/
theorem runResultIsPairsAndStatus : Obligations.RunResultIsPairsAndStatus := by
  intro s
  refine ⟨fun hover => ⟨_, result?_of_over hover, rfl, rfl, ?clean⟩, result?_of_not_over⟩
  case clean => rw [State.Clean, status_err]

end Sys2Proof.Machine
end

section
/-! The model's schedule where no turn is listed, and a listed turn (20_memory.md section 4, log entry 1). -/

namespace Sys2Proof.Machine

open Sys2Proof

/-- Settles O33: with no turns listed the next turn is the engine's exactly when it is ready, and then its step changes
the state; the head of the list is the turn taken. -/
theorem engineIsFairlyTreated : Obligations.EngineIsFairlyTreated := by
  refine ⟨fun s hl ht he hb hroom => ?engine, fun s hl ht hnot => ?host, fun s t => nextTurn_withTurn t s⟩
  case engine =>
    have hready : EngineReady s := ⟨he, hb, hroom⟩
    exact ⟨step_of_engineReady hl ht hready, engineStep_ne hready⟩
  case host => exact step_of_not_engineReady hl ht hnot

end Sys2Proof.Machine
end
